-- ==== Sys2Proof/Word.lean ====
section
/-! DEFINITION. The words of the block: slot bytes and cursors (8 bits), command words (10 bits), response words (11 bits). -/

namespace Sys2Proof

/-- One slot-state entry, one cursor or one command argument: 8 bits (`10_state.md` R20, R22; `30_encoding.md` R70). -/
abbrev Byte := BitVec 8

/-- A command word `{op, arg}`: 10 bits, bit 0 the least significant (`30_encoding.md` R70, `00_scope.md` R10). -/
abbrev CmdWord := BitVec 10

/-- A response word `{status, index}`: 11 bits (`30_encoding.md` R73). -/
abbrev RspWord := BitVec 11

end Sys2Proof
end

