-- ==== Sys2Proof/Syntax.lean ====
section
/-! DEFINITION. The four commands, the six statuses, and the assembler's lines. -/

namespace Sys2Proof

/-- A decoded command (`30_encoding.md` R71): one constructor per row of the opcode table, each with its 8-bit `arg`. -/
inductive Instr where
  /-- `INIT c` (`40_initialize.md` R90). -/
  | init (c : Byte)
  /-- `ALLOC` (`41_allocate_head.md` R100); `arg` is ignored (`30_encoding.md` R72). -/
  | alloc (arg : Byte)
  /-- `RESERVE` (`43_reserve_tail.md` R125); `arg` is ignored (`30_encoding.md` R72). -/
  | reserve (arg : Byte)
  /-- `RELEASE i` (`44_release_reserved.md` R135). -/
  | release (i : Byte)
  deriving DecidableEq, Repr

/-- The result tags (`00_scope.md` R14, `30_encoding.md` R74). -/
inductive Status where
  | ok
  | okOverwritten
  | badArgument
  | noUsedSlots
  | allSlotsReserved
  | fault
  deriving DecidableEq, Repr

/-- One line of the assembler's text (`30_encoding.md` R78): a mnemonic and, where it has one, a decimal operand. The
operand is a number as written, not yet checked to fit the `arg` field. -/
inductive AsmLine where
  | init (n : Nat)
  | alloc
  | reserve
  | release (i : Nat)
  deriving DecidableEq, Repr

end Sys2Proof
end

