-- ==== Sys2Proof/WellFormed.lean ====
section
/-! DEFINITION. Well-formedness: an operand lies in the range of the 8-bit `arg` field (`30_encoding.md` R72, R78). -/

namespace Sys2Proof

/-- A line of text is well formed when its operand, if it has one, is in `0..255` (`30_encoding.md` R78). -/
def AsmLine.wellFormed : AsmLine → Bool
  | .init n => decide (n ≤ 255)
  | .alloc => true
  | .reserve => true
  | .release i => decide (i ≤ 255)

/-- The operand of a command as a number: its whole `arg` field (`30_encoding.md` R72). -/
def Instr.operand : Instr → Nat
  | .init c => c.toNat
  | .alloc arg => arg.toNat
  | .reserve arg => arg.toNat
  | .release i => i.toNat

/-- A decoded command is well formed when its operand is in `0..255`. The type of the operand sees to it: every value of
`arg` is accepted by the decoder (`30_encoding.md` R76). -/
def Instr.wellFormed (i : Instr) : Bool :=
  decide (i.operand ≤ 255)

end Sys2Proof
end

