-- ==== Sys2Proof/Decode.lean ====
section
/-! DEFINITION. The decoder and the encoder of command words (`30_encoding.md` R70 to R79), and the assembler. -/

namespace Sys2Proof

/-- `op = cmd[9:8]` (`30_encoding.md` R70). -/
def opField (w : CmdWord) : BitVec 2 :=
  w.extractLsb' 8 2

/-- `arg = cmd[7:0]` (`30_encoding.md` R70). -/
def argField (w : CmdWord) : Byte :=
  w.extractLsb' 0 8

/-- The command a word stands for (`30_encoding.md` R71, R79): total on all 1024 words, none is illegal (R76). -/
def decode (w : CmdWord) : Instr :=
  if opField w = 0b00#2 then .init (argField w)
  else if opField w = 0b01#2 then .alloc (argField w)
  else if opField w = 0b10#2 then .reserve (argField w)
  else .release (argField w)

/-- Why a number is no command word. -/
inductive DecodeReject where
  /-- The number needs more than the ten bits of a command word (`30_encoding.md` R70, R77). -/
  | widerThanCommandWord
  deriving DecidableEq, Repr

/-- Read a number as a command: refused by name where it does not fit ten bits, else decoded. Log entry 11. -/
def decodeNumber (n : Nat) : Except DecodeReject Instr :=
  if n < 1024 then .ok (decode (BitVec.ofNat 10 n)) else .error .widerThanCommandWord

/-- The `op` value of a command (`30_encoding.md` R71). -/
def opcode : Instr → BitVec 2
  | .init _ => 0b00#2
  | .alloc _ => 0b01#2
  | .reserve _ => 0b10#2
  | .release _ => 0b11#2

/-- The `arg` value of a command (`30_encoding.md` R72). -/
def argument : Instr → Byte
  | .init c => c
  | .alloc arg => arg
  | .reserve arg => arg
  | .release i => i

/-- `cmd = {op, arg}` (`30_encoding.md` R70, R79). -/
def encode (i : Instr) : CmdWord :=
  opcode i ++ argument i

/-- The command a line of text stands for, refused where the operand does not fit; `arg` is 0 where the command takes no
operand (`30_encoding.md` R76, R78). -/
def assemble (l : AsmLine) : Option Instr :=
  if l.wellFormed then
    match l with
    | .init n => some (.init (BitVec.ofNat 8 n))
    | .alloc => some (.alloc 0)
    | .reserve => some (.reserve 0)
    | .release i => some (.release (BitVec.ofNat 8 i))
  else none

/-- The line of text of a command, the inverse of `assemble` (`30_encoding.md` R78). -/
def disassemble : Instr → AsmLine
  | .init c => .init c.toNat
  | .alloc _ => .alloc
  | .reserve _ => .reserve
  | .release i => .release i.toNat

/-- The characters of a line (`30_encoding.md` R78): the mnemonic, then the operand in decimal. -/
def AsmLine.text : AsmLine → String
  | .init n => "INIT " ++ toString n
  | .alloc => "ALLOC"
  | .reserve => "RESERVE"
  | .release i => "RELEASE " ++ toString i

/-- The command word in the low `nbits` bits of `w`, where the rest of it fits the ten-bit command port. -/
def tableWord (nbits w : Nat) : Option CmdWord :=
  if w % 2 ^ nbits < 1024 then some (BitVec.ofNat 10 (w % 2 ^ nbits)) else none

/-- The command the decoder reads from an opcode-table word: bit 0 the least significant, every bit above `nbits` 0. -/
def decodeTableWord (nbits w : Nat) : Option Instr :=
  (tableWord nbits w).map decode

end Sys2Proof
end

