-- ==== Sys2Proof/Config.lean ====
section
/-! DEFINITION. The constants of `00_scope.md` R8 and the free values of what the spec leaves open. -/

namespace Sys2Proof.Config

/-- `EMPTY`, the slot byte of a slot that holds no data (`00_scope.md` R8, `10_state.md` R22). -/
abbrev empty : Byte := 0

/-- `RESERVED`, the slot byte of a slot the consumer holds (`00_scope.md` R8, `10_state.md` R22). -/
abbrev reserved : Byte := 255

/-- `AGE_MIN`, the smallest age stamp (`00_scope.md` R8). -/
abbrev ageMin : Byte := 1

/-- `AGE_MAX`, the largest age stamp (`00_scope.md` R8). -/
abbrev ageMax : Byte := 254

/-- `CAP_MIN`, the smallest legal capacity (`00_scope.md` R8). -/
abbrev capMin : Nat := 2

/-- `CAP_MAX`, the largest legal capacity (`00_scope.md` R8). -/
abbrev capMax : Nat := 253

/-- `DEPTH`, the number of physical slot entries (`00_scope.md` R8, `10_state.md` R21). -/
abbrev depth : Nat := 253

/-- The index field of a response that returns no index (`30_encoding.md` R75). -/
abbrev noIndex : Byte := 0xFF

/-- FREE VALUE. The n-th free byte: what a register or slot entry holds after a reset event, which the spec leaves
unspecified (`10_state.md` R36, `93_implementation_defined.md` U7). Nothing in Lean knows its value. Log entry 3. -/
opaque freeByte : Nat → Byte

/-- FREE VALUE. The n-th free bit: whether a command that a reset interrupts is answered (`70_reset_and_hazards.md` R195,
`93_implementation_defined.md` U12). Nothing in Lean knows its value. Log entry 4. -/
opaque freeBool : Nat → Bool

end Sys2Proof.Config
end

