-- ==== Sys2Proof/Machine/Flags.lean ====
section
/-! DEFINITION. The block has no flags register (`10_state.md` R30): what a command reports is the status of its response. Here
are the status codes, the response word, and the three predicates on a slot byte. -/

namespace Sys2Proof.Machine

/-- `is_empty(v)` (`00_scope.md` R13). -/
def isEmpty (v : Byte) : Bool :=
  decide (v = Config.empty)

/-- `is_age(v)`: `1 ≤ v ≤ 254` (`00_scope.md` R13). -/
def isAge (v : Byte) : Bool :=
  decide (Config.ageMin.toNat ≤ v.toNat) && decide (v.toNat ≤ Config.ageMax.toNat)

/-- `is_reserved(v)` (`00_scope.md` R13). -/
def isReserved (v : Byte) : Bool :=
  decide (v = Config.reserved)

/-- The numeric status codes (`30_encoding.md` R74). -/
def statusCode : Status → BitVec 3
  | .ok => 0
  | .okOverwritten => 1
  | .badArgument => 2
  | .noUsedSlots => 3
  | .allSlotsReserved => 4
  | .fault => 5

/-- The status with a given code; 6 and 7 are never produced (`30_encoding.md` R74). -/
def statusOfCode (c : BitVec 3) : Option Status :=
  if c = 0 then some .ok
  else if c = 1 then some .okOverwritten
  else if c = 2 then some .badArgument
  else if c = 3 then some .noUsedSlots
  else if c = 4 then some .allSlotsReserved
  else if c = 5 then some .fault
  else none

/-- The error statuses, each of which leaves the block as it was (`30_encoding.md` R74, `60_exceptions.md` R177). -/
def isError : Status → Bool
  | .ok => false
  | .okOverwritten => false
  | .badArgument => true
  | .noUsedSlots => true
  | .allSlotsReserved => true
  | .fault => true

/-- `rsp = {status, index}` (`30_encoding.md` R73). -/
def responseWord (st : Status) (index : Byte) : RspWord :=
  statusCode st ++ index

/-- `rsp[10:8]`, as a status (`30_encoding.md` R73, R74). -/
def responseStatus (w : RspWord) : Option Status :=
  statusOfCode (w.extractLsb' 8 3)

/-- `rsp[7:0]` (`30_encoding.md` R73). -/
def responseIndex (w : RspWord) : Byte :=
  w.extractLsb' 0 8

/-- The name of a status (`00_scope.md` R14). -/
def statusText : Status → String
  | .ok => "Ok"
  | .okOverwritten => "OkOverwritten"
  | .badArgument => "BadArgument"
  | .noUsedSlots => "NoUsedSlots"
  | .allSlotsReserved => "AllSlotsReserved"
  | .fault => "Fault"

/-- How a response is written: `Status(index)`, or `Status` where the index field is `0xFF` (`30_encoding.md` R78). -/
def responseText (st : Status) (index : Byte) : String :=
  if index = Config.noIndex then statusText st
  else statusText st ++ "(" ++ toString index.toNat ++ ")"

end Sys2Proof.Machine
end

