-- ==== Sys2Proof/Machine/Straps.lean ====
section
/-! DEFINITION. The one parameter of an instance, at the value of the instance that `State.reset` describes. -/

namespace Sys2Proof.Machine

/-- `TAIL_REANCHOR` of the instance that `State.reset` describes (`00_scope.md` R9, `92_eei_decisions.md` D14, which leaves it
OPEN). DESIGN CHOICE, unsafe: 0, the setting in which every command does exactly the steps the source writes down. No
statement about the machine rests on it: each holds for both values of `State.tailReanchor`, or says which one it is about.
Log entry 5. -/
def tailReanchorAtReset : Bool := false

end Sys2Proof.Machine
end

