-- ==== Sys2Proof/Machine/State.lean ====
section
/-! DEFINITION. The state of the machine: the spec's own record (`10_state.md` R20), the instance's parameter, and the
model's record of what passes between the block and the host. -/

namespace Sys2Proof.Machine

/-- The slot-state array (`10_state.md` R21, `20_memory.md` R50): (index, byte) pairs in the canonical form of `Memory.wf`. -/
abbrev Memory := List Host.Cell

/-- What an unlisted entry reads as: `EMPTY`. R36 leaves the array unspecified after reset. DESIGN CHOICE, unsafe: log entry 2. -/
abbrev Memory.unlisted : Byte := Config.empty

/-- Canonical form from index `lo` on: indices strictly rising, each a physical entry, no byte equal to what an unlisted
entry reads as. -/
def Memory.wfFrom : Nat → Memory → Bool
  | _, [] => true
  | lo, (a, v) :: m => decide (lo ≤ a) && decide (a < Config.depth) && decide (v ≠ Memory.unlisted) && Memory.wfFrom (a + 1) m

/-- The canonical form of the slot array: two arrays with the same contents are the same list. -/
def Memory.wf (m : Memory) : Bool :=
  Memory.wfFrom 0 m

/-- The whole state of one block, and nothing else (`10_state.md` R20). -/
structure Block where
  /-- `init_done` (`10_state.md` R28). -/
  initDone : Bool
  /-- `capacity` (`10_state.md` R23). -/
  capacity : Byte
  /-- `size` (`10_state.md` R24). -/
  size : Byte
  /-- `head` (`10_state.md` R25). -/
  head : Byte
  /-- `tail` (`10_state.md` R26). -/
  tail : Byte
  /-- `age` (`10_state.md` R27). -/
  age : Byte
  /-- `slot[0..252]` (`10_state.md` R21, R22). -/
  slots : Memory
  deriving DecidableEq, Repr

/-- What the host can do to the block (`00_scope.md` R15). -/
inductive HostEvent where
  /-- Present one command word and wait for its response (`20_memory.md` R57). -/
  | command (w : CmdWord)
  /-- A hardware reset between two commands (`70_reset_and_hazards.md` R195). -/
  | reset
  /-- A hardware reset that arrives while this command is being performed (`70_reset_and_hazards.md` R195). -/
  | resetDuring (w : CmdWord)
  deriving DecidableEq, Repr

/-- The machine: the block, its parameter, and the model's own record of the host's side. -/
structure State where
  /-- The block's own state, all of it (`10_state.md` R20). -/
  block : Block
  /-- `TAIL_REANCHOR`, a constant of the instance, no state (`00_scope.md` R9): no step writes it. Log entry 5. -/
  tailReanchor : Bool
  /-- The model's own: what the host will present, first first (`00_scope.md` R15). Log entry 6. -/
  inbox : List HostEvent
  /-- The model's own: the response words given so far, oldest first, all the host ever learns (`10_state.md` R38). Log entry 7. -/
  outbox : List RspWord
  /-- The model's own: a `Fault` response has been given in this run (`93_implementation_defined.md` U2). Log entry 8. -/
  faulted : Bool
  /-- The model's own: how many free values have been drawn. Log entry 12. -/
  freeUsed : Nat
  deriving DecidableEq, Repr

/-- Why the machine stops with a fault. -/
inductive Fault where
  /-- A command had to access a slot index that is no valid address of the pool (`00_scope.md` R11, `20_memory.md` R50, R55).
  Raised by `ALLOC` and `RESERVE` in a state whose cursors or capacity are outside the legal values of `10_state.md` R20, and by
  `RELEASE` in one whose capacity is; no run reaches such a state. Safe. Log entry 9. -/
  | slotOutOfRange
  deriving DecidableEq, Repr

/-- Why the machine refuses an instruction. -/
inductive Refusal where
  /-- The instruction has no meaning yet. Raised by `exec`'s refused arms; there is none left. Safe. -/
  | notModelled (mnemonic : String)
  deriving DecidableEq, Repr

/-- The block after a hardware reset: `init_done` is 0; the rest is unspecified (`10_state.md` R36) and holds 0.
DESIGN CHOICE, unsafe: log entries 1 and 2. -/
def Block.reset : Block where
  initDone := false
  capacity := 0
  size := 0
  head := 0
  tail := 0
  age := 0
  slots := []

/-- The machine right after reset, with nothing presented and nothing answered yet. -/
def State.reset : State where
  block := Block.reset
  tailReanchor := tailReanchorAtReset
  inbox := []
  outbox := []
  faulted := false
  freeUsed := 0

end Sys2Proof.Machine
end

