-- ==== Sys2Proof/Machine/Operands.lean ====
section
/-! DEFINITION. The arithmetic of indices and ages (`00_scope.md` R12, `45_properties.md` R160), the access to one slot entry, and
the block's one addressing mode: a scan from a base cursor, upward and wrapping (`20_memory.md` R58). -/

namespace Sys2Proof.Machine

/-- `next_idx(i)` (`00_scope.md` R12). -/
def nextIdx (capacity i : Byte) : Byte :=
  if i + 1 = capacity then 0 else i + 1

/-- `idx_add(i, j) = (i + j) mod capacity` (`00_scope.md` R12). -/
def idxAdd (capacity : Byte) (i j : Nat) : Nat :=
  (i + j) % capacity.toNat

/-- `next_age(a)` (`00_scope.md` R12). Outside its stated domain 1..254 it is the same formula on 8 bits: log entry 10. -/
def nextAge (a : Byte) : Byte :=
  if a = Config.ageMax then Config.ageMin else a + 1

/-- The byte of one entry: the listed one, else what an unlisted entry reads as. -/
def Memory.read : Memory → Nat → Byte
  | [], _ => Memory.unlisted
  | (b, w) :: m, a => if b = a then w else Memory.read m a

/-- Put a byte into a canonical list of entries, keeping it canonical. -/
def Memory.put : Memory → Nat → Byte → Memory
  | [], a, v => if v = Memory.unlisted then [] else [(a, v)]
  | (b, w) :: m, a, v =>
    if a < b then (if v = Memory.unlisted then (b, w) :: m else (a, v) :: (b, w) :: m)
    else if a = b then (if v = Memory.unlisted then m else (a, v) :: m)
    else (b, w) :: Memory.put m a v

/-- `slot[a] <- v` (`00_scope.md` R11); indices from 253 on have no entry (`20_memory.md` R55) and nothing is stored. -/
def Memory.write (m : Memory) (a : Nat) (v : Byte) : Memory :=
  if a < Config.depth then m.put a v else m

/-- The byte stored for entry `i`, whatever `capacity` is. -/
def Block.entry (b : Block) (i : Nat) : Byte :=
  b.slots.read i

/-- `slot[i]`, legal only for `0 ≤ i < capacity` (`00_scope.md` R11) and where the entry exists (`20_memory.md` R55). -/
def Block.slot? (b : Block) (i : Nat) : Option Byte :=
  if i < b.capacity.toNat ∧ i < Config.depth then some (b.entry i) else none

/-- What a scan answers. -/
inductive Probe where
  /-- The first match is at this index. -/
  | found (k : Nat)
  /-- No probed entry matches. -/
  | missed
  /-- A probe fell outside the pool's entries. -/
  | outOfRange
  deriving DecidableEq, Repr

/-- Probe `slot[idx_add(base, j)]`, `slot[idx_add(base, j + 1)]`, … at most `fuel` times and stop at the first entry equal to
`want` (`20_memory.md` R58). -/
def Block.scan (b : Block) (want : Byte) (base : Nat) : (fuel j : Nat) → Probe
  | 0, _ => .missed
  | fuel + 1, j =>
    match b.slot? (idxAdd b.capacity base j) with
    | none => .outOfRange
    | some v => if v = want then .found (idxAdd b.capacity base j) else b.scan want base fuel (j + 1)

/-- The `EMPTY` scan of `ALLOC`: `j = 0 .. capacity-1` from `head` (`41_allocate_head.md` R101). -/
def Block.findEmpty (b : Block) : Probe :=
  b.scan Config.empty b.head.toNat b.capacity.toNat 0

/-- The re-sync scan for the age after `v`: `j = 1 .. capacity` from `tail` (`42_tail_resync.md` R116, R118). -/
def Block.findNextAge (b : Block) (v : Byte) : Probe :=
  b.scan (nextAge v) b.tail.toNat b.capacity.toNat 1

end Sys2Proof.Machine
end

