-- ==== Sys2Proof/Machine/Ops.lean ====
section
/-! DEFINITION. The named operations the commands share: giving a response, ending in an error, re-sync, the hardware reset. -/

namespace Sys2Proof.Machine

/-- The state after a response: the block as the command leaves it, the response word given to the host, and a `Fault` response
put on record (`30_encoding.md` R73, `20_memory.md` R57, `93_implementation_defined.md` U2). -/
def State.reply (s : State) (b : Block) (st : Status) (index : Byte) : State :=
  { s with block := b, outbox := s.outbox ++ [responseWord st index], faulted := s.faulted || decide (st = .fault) }

/-- `respond S(i)` (`00_scope.md` R11). -/
def State.respond (s : State) (b : Block) (st : Status) (index : Byte) : Host.Outcome State Fault Refusal :=
  .next (s.reply b st index)

/-- `raise E` (`00_scope.md` R11, `60_exceptions.md` R170, R177): TAKING AN ERROR, the one such operation. The block is as it was
before the command; nothing is saved and control goes nowhere, so there is no return from it either (R180). -/
def State.raise (s : State) (e : Status) : Host.Outcome State Fault Refusal :=
  s.respond s.block e Config.noIndex

/-- `slot[i] <- v` on the block. -/
def Block.store (b : Block) (i : Nat) (v : Byte) : Block :=
  { b with slots := b.slots.write i v }

/-- `resync()` (`42_tail_resync.md` R116, R117): `tail` goes to the first entry that holds the age after the one at `tail`; where
there is none, `tail` stays. `none` where an entry it must read does not exist. Its callers run it only on a tail entry in `AGE`
state (R115). -/
def Block.resync (b : Block) : Option Block :=
  match b.slot? b.tail.toNat with
  | none => none
  | some v =>
    match b.findNextAge v with
    | .found k => some { b with tail := BitVec.ofNat 8 k }
    | .missed => some b
    | .outOfRange => none

/-- The slot array with entries `0 .. n-1` stored as `f 0 .. f (n-1)`. -/
def Memory.fill (m : Memory) (f : Nat → Byte) : Nat → Memory
  | 0 => m
  | n + 1 => (Memory.fill m f n).write n (f n)

/-- A slot array of `n` entries, each a free value, drawn from the `k`-th on. -/
@[irreducible] def Memory.free (k n : Nat) : Memory :=
  Memory.fill [] (fun i => Config.freeByte (k + i)) n

/-- How many free bytes one hardware reset draws: five cursors and every slot entry. -/
abbrev resetDraws : Nat := 5 + Config.depth

/-- The block after a hardware reset (`70_reset_and_hazards.md` R195, `10_state.md` R36): `init_done` is 0 and every other piece of
state is unspecified, so a free value, drawn from the `n`-th on. Log entry 3. -/
def Block.afterReset (n : Nat) : Block where
  initDone := false
  capacity := Config.freeByte n
  size := Config.freeByte (n + 1)
  head := Config.freeByte (n + 2)
  tail := Config.freeByte (n + 3)
  age := Config.freeByte (n + 4)
  slots := Memory.free (n + 5) Config.depth

/-- A hardware reset of the machine. It gives no response, and the record of a `Fault` response stays: that record is outside the
block (`93_implementation_defined.md` U2). Log entries 3 and 8. -/
def State.hardwareReset (s : State) : State :=
  { s with block := Block.afterReset s.freeUsed, freeUsed := s.freeUsed + resetDraws }

/-- The host's next event, taken from what it will present. -/
def State.take (s : State) (rest : List HostEvent) : State :=
  { s with inbox := rest }

/-- One free bit drawn. -/
def State.drawn (s : State) : State :=
  { s with freeUsed := s.freeUsed + 1 }

/-- A hardware reset after a command, where the command answered. -/
def resetAfter : Host.Outcome State Fault Refusal → Host.Outcome State Fault Refusal
  | .next s => .next s.hardwareReset
  | .fault r => .fault r
  | .refused r => .refused r

end Sys2Proof.Machine
end

