-- ==== Sys2Proof/Machine/AllocateHead.lean ====
section
/-! DEFINITION. `ALLOC` (`41_allocate_head.md`). -/

namespace Sys2Proof.Machine

/-- The hit path at entry `k` (`41_allocate_head.md` R102), with the re-anchor step (R103) where the parameter asks for it. -/
def Block.fillSlot (b : Block) (tailReanchor : Bool) (k : Nat) : Block :=
  { b with
    tail := if tailReanchor = true ∧ b.size = 0 then BitVec.ofNat 8 k else b.tail
    slots := b.slots.write k b.age
    size := b.size + 1
    head := nextIdx b.capacity (BitVec.ofNat 8 k)
    age := nextAge b.age }

/-- The overwrite of entry `t`, once re-sync has run (`41_allocate_head.md` R105 to R107): `head` is `t` itself, `size` stays. -/
def Block.restamp (b : Block) (t : Byte) : Block :=
  { b with head := t, slots := b.slots.write t.toNat b.age, age := nextAge b.age }

/-- `ALLOC` where no entry is `EMPTY` (`41_allocate_head.md` R104, R105). -/
def State.overwriteTail (s : State) : Host.Outcome State Fault Refusal :=
  match s.block.slot? s.block.tail.toNat with
  | none => .fault .slotOutOfRange
  | some v =>
    if v = Config.reserved then s.raise .allSlotsReserved
    else
      match s.block.resync with
      | none => .fault .slotOutOfRange
      | some b => s.respond (b.restamp s.block.tail) .okOverwritten s.block.tail

/-- `ALLOC` (`41_allocate_head.md` R100); `arg` is ignored (`30_encoding.md` R72). -/
def execAlloc (_arg : Byte) (s : State) : Host.Outcome State Fault Refusal :=
  if s.block.initDone = false then s.raise .badArgument
  else
    match s.block.findEmpty with
    | .outOfRange => .fault .slotOutOfRange
    | .found k => s.respond (s.block.fillSlot s.tailReanchor k) .ok (BitVec.ofNat 8 k)
    | .missed => s.overwriteTail

end Sys2Proof.Machine
end

