-- ==== Sys2Proof/Machine/Initialize.lean ====
section
/-! DEFINITION. `INIT` (`40_initialize.md`). -/

namespace Sys2Proof.Machine

/-- The pool of `c` slots that a successful `INIT c` creates (`40_initialize.md` R90, R92). Entries from `c` on keep what they held
(R94, which allows either). Log entry 14. -/
def Block.create (b : Block) (c : Byte) : Block where
  initDone := true
  capacity := c
  size := 0
  head := 0
  tail := 0
  age := 1
  slots := Memory.fill b.slots (fun _ => Config.empty) c.toNat

/-- `INIT c` (`40_initialize.md` R90). -/
def execInit (c : Byte) (s : State) : Host.Outcome State Fault Refusal :=
  if c.toNat < Config.capMin ∨ Config.capMax < c.toNat then s.raise .badArgument
  else s.respond (s.block.create c) .ok Config.noIndex

end Sys2Proof.Machine
end

