-- ==== Sys2Proof/Machine/ReleaseReserved.lean ====
section
/-! DEFINITION. `RELEASE` (`44_release_reserved.md`). -/

namespace Sys2Proof.Machine

/-- `RELEASE i` (`44_release_reserved.md` R135): one entry written and nothing else (R137). -/
def execRelease (i : Byte) (s : State) : Host.Outcome State Fault Refusal :=
  if s.block.initDone = false then s.raise .badArgument
  else if s.block.capacity.toNat ≤ i.toNat then s.raise .badArgument
  else
    match s.block.slot? i.toNat with
    | none => .fault .slotOutOfRange
    | some v =>
      if v = Config.reserved then s.respond (s.block.store i.toNat Config.empty) .ok Config.noIndex
      else s.raise .badArgument

end Sys2Proof.Machine
end

