-- ==== Sys2Proof/Machine/ReserveTail.lean ====
section
/-! DEFINITION. `RESERVE` (`43_reserve_tail.md`). -/

namespace Sys2Proof.Machine

/-- Entry `t` becomes `RESERVED` and one live slot fewer is counted (`43_reserve_tail.md` R128), once re-sync has run. -/
def Block.claim (b : Block) (t : Byte) : Block :=
  { b with slots := b.slots.write t.toNat Config.reserved, size := b.size - 1 }

/-- `RESERVE` (`43_reserve_tail.md` R125), its checks in the order of R126; `arg` is ignored (`30_encoding.md` R72). -/
def execReserve (_arg : Byte) (s : State) : Host.Outcome State Fault Refusal :=
  if s.block.initDone = false then s.raise .badArgument
  else if s.block.size = 0 then s.raise .noUsedSlots
  else
    match s.block.slot? s.block.tail.toNat with
    | none => .fault .slotOutOfRange
    | some v =>
      if v = Config.reserved then s.raise .allSlotsReserved
      else if v = Config.empty then s.raise .fault
      else
        match s.block.resync with
        | none => .fault .slotOutOfRange
        | some b => s.respond (b.claim s.block.tail) .ok s.block.tail

end Sys2Proof.Machine
end

