-- ==== Sys2Proof/Machine/Dispatch.lean ====
section
/-! DEFINITION. One arm per command (`30_encoding.md` R71). -/

namespace Sys2Proof.Machine

def exec (i : Instr) (s : State) : Host.Outcome State Fault Refusal :=
  match i with
  | .init c => Sys2Proof.Machine.execInit c s
  | .alloc arg => Sys2Proof.Machine.execAlloc arg s
  | .reserve arg => Sys2Proof.Machine.execReserve arg s
  | .release k => Sys2Proof.Machine.execRelease k s

end Sys2Proof.Machine
end

