-- ==== Sys2Proof/Machine/Port.lean ====
section
/-! DEFINITION. What the block does with one event at its command port (`00_scope.md` R15, `20_memory.md` R57). -/

namespace Sys2Proof.Machine

/-- A command word is decoded and performed whole, as one indivisible step (`20_memory.md` R57, `30_encoding.md` R79). -/
def State.perform (s : State) (w : CmdWord) : Host.Outcome State Fault Refusal :=
  exec (decode w) s

/-- A reset that arrives during a command counts as arriving after it (the command is performed, answers, and is erased) or
before it (no response): a free bit says which (`70_reset_and_hazards.md` R195, `93_implementation_defined.md` U12). Log entry 4. -/
def State.interruptedByReset (s : State) (w : CmdWord) : Host.Outcome State Fault Refusal :=
  if Config.freeBool s.freeUsed = true then resetAfter (s.drawn.perform w) else .next s.drawn.hardwareReset

/-- The host's next event is taken and acted on. With nothing presented the block is quiescent (`70_reset_and_hazards.md` R206). -/
def State.port (s : State) : Host.Outcome State Fault Refusal :=
  match s.inbox with
  | [] => .next s
  | .command w :: rest => (s.take rest).perform w
  | .reset :: rest => .next (s.take rest).hardwareReset
  | .resetDuring w :: rest => (s.take rest).interruptedByReset w

/-- The host presents a command word next, before whatever else it will present. -/
def State.present (s : State) (w : CmdWord) : State :=
  { s with inbox := .command w :: s.inbox }

end Sys2Proof.Machine
end

