-- ==== Sys2Proof/Machine/Step.lean ====
section
/-! DEFINITION. One step of the machine: one event at the command port. -/

namespace Sys2Proof.Machine

/-- One step (`00_scope.md` R7): the host's next command or reset, or, with nothing presented, nothing. -/
def step (s : State) : Host.Outcome State Fault Refusal :=
  s.port

/-- The host presents the opcode-table word `w` as its next command. The block stores no program (`10_state.md` R29), so this stands
for the host's act; a number that does not fit the ten-bit port is not presented. Log entries 6 and 11. -/
def State.withFetchWord (s : State) (nbits w : Nat) : State :=
  match tableWord nbits w with
  | some c => s.present c
  | none => s

end Sys2Proof.Machine
end

