-- ==== Sys2Proof/Machine/Accesses.lean ====
section
/-! DEFINITION. How many slot entries a command reads and writes, read off its pseudocode (`70_reset_and_hazards.md` R205). These
counts are no timing (R204): they are what the bounds of R205 speak of. Log entry 13. -/

namespace Sys2Proof.Machine

/-- A number of entries read and a number of entries written. -/
structure Accesses where
  reads : Nat
  writes : Nat
  deriving DecidableEq, Repr

/-- The entries that `Block.scan` reads. -/
def Block.scanReads (b : Block) (want : Byte) (base : Nat) : (fuel j : Nat) → Nat
  | 0, _ => 0
  | fuel + 1, j =>
    match b.slot? (idxAdd b.capacity base j) with
    | none => 0
    | some v => if v = want then 1 else b.scanReads want base fuel (j + 1) + 1

/-- The entries that re-sync reads after the one at `tail`, whose byte is `v` (`42_tail_resync.md` R116). -/
def Block.resyncReads (b : Block) (v : Byte) : Nat :=
  b.scanReads (nextAge v) b.tail.toNat b.capacity.toNat 1

/-- `INIT c`: one write for each entry of the new pool. -/
def initAccesses (c : Byte) : Accesses :=
  if c.toNat < Config.capMin ∨ Config.capMax < c.toNat then ⟨0, 0⟩ else ⟨0, c.toNat⟩

/-- `ALLOC`: the `EMPTY` scan, then on a miss the entry at `tail` and re-sync; one write on either success. -/
def allocAccesses (b : Block) : Accesses :=
  let scanned := b.scanReads Config.empty b.head.toNat b.capacity.toNat 0
  if b.initDone = false then ⟨0, 0⟩
  else
    match b.findEmpty with
    | .outOfRange => ⟨scanned, 0⟩
    | .found _ => ⟨scanned, 1⟩
    | .missed =>
      match b.slot? b.tail.toNat with
      | none => ⟨scanned, 0⟩
      | some v => if v = Config.reserved then ⟨scanned + 1, 0⟩ else ⟨scanned + 1 + b.resyncReads v, 1⟩

/-- `RESERVE`: the entry at `tail` and re-sync; one write on success. -/
def reserveAccesses (b : Block) : Accesses :=
  if b.initDone = false ∨ b.size = 0 then ⟨0, 0⟩
  else
    match b.slot? b.tail.toNat with
    | none => ⟨0, 0⟩
    | some v => if v = Config.reserved ∨ v = Config.empty then ⟨1, 0⟩ else ⟨1 + b.resyncReads v, 1⟩

/-- `RELEASE i`: the one entry named, read and, if it is `RESERVED`, written. -/
def releaseAccesses (i : Byte) (b : Block) : Accesses :=
  if b.initDone = false then ⟨0, 0⟩
  else
    match b.slot? i.toNat with
    | none => ⟨0, 0⟩
    | some v => if v = Config.reserved then ⟨1, 1⟩ else ⟨1, 0⟩

/-- The slot-array accesses of a command. -/
def accesses : Instr → Block → Accesses
  | .init c, _ => initAccesses c
  | .alloc _, b => allocAccesses b
  | .reserve _, b => reserveAccesses b
  | .release i, b => releaseAccesses i b

end Sys2Proof.Machine
end

