-- ==== Sys2Proof/Safety.lean ====
section
/-! DEFINITION. What claims about the machine speak of: the legal values of the state, the order of the live slots, what the host
can tell apart, and the record of a `Fault` response. -/

namespace Sys2Proof.Machine

/-- How many of the entries `0 .. n-1` have a byte that meets `p`. -/
def Block.count (b : Block) (p : Byte → Bool) : Nat → Nat
  | 0 => 0
  | n + 1 => b.count p n + (p (b.entry n)).toNat

/-- The number of live slots of the pool (`00_scope.md` R17). -/
abbrev Block.liveCount (b : Block) : Nat :=
  b.count isAge b.capacity.toNat

/-- The number of `RESERVED` entries of the pool. -/
abbrev Block.reservedCount (b : Block) : Nat :=
  b.count isReserved b.capacity.toNat

/-- The number of `EMPTY` entries of the pool. -/
abbrev Block.emptyCount (b : Block) : Nat :=
  b.count isEmpty b.capacity.toNat

/-- The legal values of the registers once a pool exists (`10_state.md` R20). -/
abbrev Block.InRange (b : Block) : Prop :=
  2 ≤ b.capacity.toNat ∧ b.capacity.toNat ≤ 253 ∧ b.size.toNat ≤ b.capacity.toNat ∧ b.head.toNat < b.capacity.toNat ∧
    b.tail.toNat < b.capacity.toNat ∧ 1 ≤ b.age.toNat ∧ b.age.toNat ≤ 254

/-- The invariants that hold for both values of `TAIL_REANCHOR` (`10_state.md` R34), once a pool exists; and the slot array is in
its canonical form. -/
abbrev Block.Inv (b : Block) : Prop :=
  b.slots.wf = true ∧
    (b.initDone = true →
      b.InRange ∧ b.size.toNat = b.liveCount ∧
        b.size.toNat + b.reservedCount + b.emptyCount = b.capacity.toNat)

/-- The bytes at `L`, oldest first, are consecutive on the wheel, and the one after the last is `age` (`45_properties.md` R152 (ii), (iii)). -/
def Block.consecutive (b : Block) : List Nat → Bool
  | [] => true
  | [i] => decide (nextAge (b.entry i) = b.age)
  | i :: j :: L => decide (b.entry j = nextAge (b.entry i)) && b.consecutive (j :: L)

/-- The window invariant (`45_properties.md` R152): `L` lists the live slots, each once, oldest first; their stamps are consecutive
and end just before `age`; `tail` is the oldest. -/
abbrev Block.Window (b : Block) (L : List Nat) : Prop :=
  L.length = b.size.toNat ∧ L.Nodup ∧ (∀ i ∈ L, i < b.capacity.toNat ∧ isAge (b.entry i) = true) ∧
    (∀ i < b.capacity.toNat, isAge (b.entry i) = true → i ∈ L) ∧ b.consecutive L = true ∧
    L.head? = if b.size = 0 then none else some b.tail.toNat

/-- The state invariant of a machine with `TAIL_REANCHOR = 1`: while a pool exists its live slots form a window. -/
def State.Ordered (s : State) : Prop :=
  s.tailReanchor = true → s.block.initDone = true → ∃ L, s.block.Window L

/-- A command is performed and answers with this status and index. -/
abbrev Answers (i : Instr) (s t : State) (st : Status) (k : Byte) : Prop :=
  exec i s = .next t ∧ t.outbox = s.outbox ++ [responseWord st k]

/-- Why a command returns a status: the table of `60_exceptions.md` R171, `False` where it has a dash. -/
def StatusCause (b : Block) : Instr → Status → Prop
  | .init c, .ok => 2 ≤ c.toNat ∧ c.toNat ≤ 253
  | .init c, .badArgument => c.toNat < 2 ∨ 253 < c.toNat
  | .init _, _ => False
  | .alloc _, .ok => b.initDone = true ∧ ∃ k < b.capacity.toNat, b.entry k = 0
  | .alloc _, .okOverwritten =>
    b.initDone = true ∧ (∀ k < b.capacity.toNat, b.entry k ≠ 0) ∧ isAge (b.entry b.tail.toNat) = true
  | .alloc _, .badArgument => b.initDone = false
  | .alloc _, .allSlotsReserved =>
    b.initDone = true ∧ (∀ k < b.capacity.toNat, b.entry k ≠ 0) ∧ b.entry b.tail.toNat = 255
  | .alloc _, _ => False
  | .reserve _, .ok => b.initDone = true ∧ 0 < b.size.toNat ∧ isAge (b.entry b.tail.toNat) = true
  | .reserve _, .badArgument => b.initDone = false
  | .reserve _, .noUsedSlots => b.initDone = true ∧ b.size = 0
  | .reserve _, .allSlotsReserved => b.initDone = true ∧ 0 < b.size.toNat ∧ b.entry b.tail.toNat = 255
  | .reserve _, .fault => b.initDone = true ∧ 0 < b.size.toNat ∧ b.entry b.tail.toNat = 0
  | .reserve _, _ => False
  | .release i, .ok => b.initDone = true ∧ i.toNat < b.capacity.toNat ∧ b.entry i.toNat = 255
  | .release i, .badArgument => b.initDone = false ∨ b.capacity.toNat ≤ i.toNat ∨ b.entry i.toNat ≠ 255
  | .release _, _ => False

/-- How the list of live slots, in the order in which they were last stamped, changes with a command and its response
(`45_properties.md` R152): `INIT` empties it, the hit path of `ALLOC` appends, the overwrite path moves the oldest to the back,
`RESERVE` takes the oldest away; `RELEASE` and errors leave it. -/
def queueAfter (i : Instr) (st : Status) (k : Nat) (L : List Nat) : List Nat :=
  match i, st with
  | .init _, .ok => []
  | .alloc _, .ok => L ++ [k]
  | .alloc _, .okOverwritten => L.tail ++ [k]
  | .reserve _, .ok => L.tail
  | _, _ => L

/-- The responses that name the oldest live slot (`45_properties.md` R154). -/
def namesOldest (i : Instr) (st : Status) : Bool :=
  match i, st with
  | .alloc _, .okOverwritten => true
  | .reserve _, .ok => true
  | _, _ => false

/-- The queue of live slots along a run: each command with its response changes it by `queueAfter`, and a response that names the
oldest must name the front. `none` where one does not. -/
def queueRun : List Nat → List (Instr × Status × Byte) → Option (List Nat)
  | L, [] => some L
  | L, (i, st, k) :: rest =>
    if namesOldest i st = true ∧ L.head? ≠ some k.toNat then none else queueRun (queueAfter i st k.toNat L) rest

/-- Two machines the host cannot tell apart (`10_state.md` R36, R38): the same instance, the same responses so far, the same to
come; a pool in both or in neither; and where there is one, the same cursors and the same entries below `capacity`. -/
def State.SameToHost (s t : State) : Prop :=
  s.tailReanchor = t.tailReanchor ∧ s.inbox = t.inbox ∧ s.outbox = t.outbox ∧ s.faulted = t.faulted ∧ s.freeUsed = t.freeUsed ∧
    s.block.initDone = t.block.initDone ∧
    (s.block.initDone = true →
      s.block.capacity = t.block.capacity ∧ s.block.size = t.block.size ∧ s.block.head = t.block.head ∧
        s.block.tail = t.block.tail ∧ s.block.age = t.block.age ∧
        ∀ i, i < s.block.capacity.toNat → s.block.entry i = t.block.entry i)

/-- A safe run has had no `Fault` response (`60_exceptions.md` R175, `93_implementation_defined.md` U2). -/
def State.Safe (s : State) : Prop :=
  s.faulted = false

/-- The commands of a list, one after another, each after the response to the one before (`20_memory.md` R57). -/
def execAll : List Instr → State → Host.Outcome State Fault Refusal
  | [], s => .next s
  | i :: is, s =>
    match exec i s with
    | .next t => execAll is t
    | .fault r => .fault r
    | .refused r => .refused r

end Sys2Proof.Machine
end

