-- ==== Sys2Proof/Certificates/Slice0/Obligations.lean ====
section
/-! DEFINITION. What is claimed of the machine, for the provers. -/

open Sys2Proof Sys2Proof.Machine

/-- `30_encoding.md` R79: the decoder and the encoder are inverse, each way, on all four commands and all 1024 words, and the two
fields of a word are its quotient and remainder by 256. -/
def Obligations.DecodeEncodeInverse : Prop :=
  (∀ i : Instr, i.wellFormed = true ∧ decode (encode i) = i) ∧
    (∀ w : CmdWord, encode (decode w) = w) ∧
    (∀ i : Instr, (encode i).toNat = (opcode i).toNat * 256 + (argument i).toNat) ∧
    (∀ w : CmdWord, (opField w).toNat = w.toNat / 256 ∧ (argField w).toNat = w.toNat % 256 ∧
      opcode (decode w) = opField w ∧ argument (decode w) = argField w)

/-- The command words of `95_test_vectors.md`'s encoding table, bit by bit, decode to the commands they stand for. -/
def Obligations.TableWordsDecode : Prop :=
  decode 0b0000000010 = .init 2 ∧ decode 0b0011111101 = .init 253 ∧ decode 0b0100000000 = .alloc 0 ∧
    decode 0b0110100101 = .alloc 0xA5 ∧ decode 0b1000000000 = .reserve 0 ∧ decode 0b1011111111 = .reserve 0xFF ∧
    decode 0b1111111100 = .release 252 ∧ decode 0b1100000000 = .release 0

/-- `30_encoding.md` R78: a well-formed line of text assembles to the command it names, whose word is the one of R78's table and
whose line is the same line again; a line whose operand does not fit is refused. -/
def Obligations.AssembledWords : Prop :=
  (∀ n, n ≤ 255 → ∃ i, assemble (.init n) = some i ∧ (encode i).toNat = n ∧ disassemble i = .init n) ∧
    (∃ i, assemble .alloc = some i ∧ encode i = 0x100 ∧ disassemble i = .alloc) ∧
    (∃ i, assemble .reserve = some i ∧ encode i = 0x200 ∧ disassemble i = .reserve) ∧
    (∀ n, n ≤ 255 → ∃ i, assemble (.release n) = some i ∧ (encode i).toNat = 0x300 + n ∧ disassemble i = .release n) ∧
    (∀ n, 255 < n → assemble (.init n) = none ∧ assemble (.release n) = none)

/-- `30_encoding.md` R73: the status and the index of a response word are read back from its bits 10..8 and 7..0. -/
def Obligations.ResponseFields : Prop :=
  ∀ (st : Status) (k : Byte),
    responseStatus (responseWord st k) = some st ∧ responseIndex (responseWord st k) = k ∧
      (responseWord st k).toNat = (statusCode st).toNat * 256 + k.toNat ∧ (statusCode st).toNat ≤ 5

/-- `30_encoding.md` R75: every command gives exactly one response. Its index is a slot of the pool exactly for `ALLOC` and `RESERVE`
with a success status: the slot just allocated (it was `EMPTY` and now bears the stamp), just overwritten (the live one at `tail`, now
bearing the stamp) or just reserved (the live one at `tail`, now `RESERVED`). In every other response it is `0xFF`, which is no slot. -/
def Obligations.OneResponseWithIndex : Prop :=
  ∀ (i : Instr) (s : State), s.block.Inv →
    ∃ t st k, Answers i s t st k ∧
      (match i, st with
        | .alloc _, .ok =>
          k.toNat < t.block.capacity.toNat ∧ k ≠ 0xFF ∧ s.block.entry k.toNat = 0 ∧ t.block.entry k.toNat = s.block.age
        | .alloc _, .okOverwritten =>
          k.toNat < t.block.capacity.toNat ∧ k ≠ 0xFF ∧ k = s.block.tail ∧ isAge (s.block.entry k.toNat) = true ∧
            t.block.entry k.toNat = s.block.age
        | .reserve _, .ok =>
          k.toNat < t.block.capacity.toNat ∧ k ≠ 0xFF ∧ k = s.block.tail ∧ isAge (s.block.entry k.toNat) = true ∧
            t.block.entry k.toNat = 255
        | _, _ => k = 0xFF)

/-- `30_encoding.md` R72: `ALLOC` and `RESERVE` ignore `arg`. -/
def Obligations.ArgumentIgnored : Prop :=
  ∀ (a b : Byte) (s : State), exec (.alloc a) s = exec (.alloc b) s ∧ exec (.reserve a) s = exec (.reserve b) s

/-- `00_scope.md` R12: `next_idx` and `next_age` are as the rule defines them, each stays in its range, `next_age` never gives a
sentinel (0 or 255), and `idx_add(i, j) = (i + j) mod capacity` is `next_idx` applied `j` times. -/
def Obligations.SuccessorFunctions : Prop :=
  (∀ c i : Byte, i.toNat < c.toNat →
      (nextIdx c i).toNat = (if i.toNat + 1 = c.toNat then 0 else i.toNat + 1) ∧ (nextIdx c i).toNat < c.toNat) ∧
    (∀ a : Byte, 1 ≤ a.toNat → a.toNat ≤ 254 →
      (nextAge a).toNat = (if a.toNat = 254 then 1 else a.toNat + 1) ∧ isAge (nextAge a) = true ∧ nextAge a ≠ 0 ∧ nextAge a ≠ 255) ∧
    (∀ (c i : Byte) (j : Nat), i.toNat < c.toNat → j ≤ c.toNat →
      idxAdd c i.toNat j = (i.toNat + j) % c.toNat ∧ idxAdd c i.toNat j = ((nextIdx c)^[j] i).toNat)

/-- `45_properties.md` R160 (b): `next_age` is one cycle of length 254 on 1..254: from any age every age is reached, in fewer than
254 steps, and the 254th step is the first to come back. -/
def Obligations.AgeWheelIsOneCycle : Prop :=
  ∀ a c : Byte, isAge a = true → isAge c = true →
    (∃ n < 254, nextAge^[n] a = c) ∧ nextAge^[254] a = a ∧ ∀ n, 0 < n → n < 254 → nextAge^[n] a ≠ a

/-- `00_scope.md` R13: exactly one of the three predicates holds for every slot byte. -/
def Obligations.SlotPredicatesExclusive : Prop :=
  ∀ v : Byte,
    (isEmpty v = true ∧ isAge v = false ∧ isReserved v = false ∧ v.toNat = 0) ∨
      (isEmpty v = false ∧ isAge v = true ∧ isReserved v = false ∧ 1 ≤ v.toNat ∧ v.toNat ≤ 254) ∨
      (isEmpty v = false ∧ isAge v = false ∧ isReserved v = true ∧ v.toNat = 255)

/-- A step runs the decoded command: where the host's next event is a command word, `step` is `exec` of the (well-formed) command it
decodes to, at the state with that event taken (`20_memory.md` R57). -/
def Obligations.StepRunsDecodedCommand : Prop :=
  ∀ (s : State) (w : CmdWord) (rest : List HostEvent), s.inbox = .command w :: rest →
    (decode w).wellFormed = true ∧ step s = exec (decode w) { s with inbox := rest }

/-- The opcode-table word the host is given for a command is what the very next step runs, at the state it was presented to. -/
def Obligations.PresentedWordRunsNext : Prop :=
  ∀ (s : State) (w : Nat), w < 1024 →
    decodeTableWord 16 w = some (decode (BitVec.ofNat 10 w)) ∧
      step (s.withFetchWord 16 w) = exec (decode (BitVec.ofNat 10 w)) s

/-- `70_reset_and_hazards.md` R206 and `00_scope.md` R15: a step takes exactly one event, and with none presented nothing changes. -/
def Obligations.OneEventAStep : Prop :=
  ∀ s t : State, step s = .next t →
    t.inbox = s.inbox.tail ∧ t.tailReanchor = s.tailReanchor ∧ (s.inbox = [] → t = s)

/-- `70_reset_and_hazards.md` R195: a reset event sets `init_done` to 0 and gives no response; the record of a `Fault` response, which
is outside the block, stays (log entry 8). -/
def Obligations.ResetEventEndsThePool : Prop :=
  ∀ (s : State) (rest : List HostEvent), s.inbox = .reset :: rest →
    ∃ t, step s = .next t ∧ t.block.initDone = false ∧ t.block.slots.wf = true ∧ t.inbox = rest ∧ t.outbox = s.outbox ∧
      t.faulted = s.faulted ∧ t.tailReanchor = s.tailReanchor

/-- `70_reset_and_hazards.md` R195: a reset that arrives during a command leaves the reset state; the host either gets no response or
the one the command gives, and no other (log entry 4). That the reset leaves the record of a `Fault` response, which is outside the
block, is the model's choice (log entry 8). -/
def Obligations.ResetDuringCommand : Prop :=
  ∀ (s : State) (w : CmdWord) (rest : List HostEvent), s.inbox = .resetDuring w :: rest → s.block.Inv →
    ∃ t, step s = .next t ∧ t.block.initDone = false ∧ t.inbox = rest ∧
      ((t.outbox = s.outbox ∧ t.faulted = s.faulted) ∨
        ∃ u, exec (decode w) s = .next u ∧ t.outbox = u.outbox ∧ t.faulted = u.faulted)

/-- `10_state.md` R36, R38 and `40_initialize.md` R94: what the spec leaves unspecified is invisible. Two machines that agree on all
the host may learn (before an `INIT`: on nothing in the block but `init_done`; after it: on the cursors and the entries below
`capacity`) answer alike and stay so. Hence no response rests on a reset value the model chose (log entries 1, 2, 3 and 14). -/
def Obligations.UnspecifiedStateIsInvisible : Prop :=
  ∀ s t s' : State, s.SameToHost t → s.block.slots.wf = true → t.block.slots.wf = true → step s = .next s' →
    ∃ t', step t = .next t' ∧ s'.SameToHost t' ∧ s'.block.slots.wf = true ∧ t'.block.slots.wf = true

/-- `40_initialize.md` R90, R92 and R94: `INIT c` with `c` in 2..253 answers `Ok` in every state and leaves an empty pool of `c` slots;
entries from `c` on, and everything outside the block but the response, are as before. -/
def Obligations.InitCreatesEmptyPool : Prop :=
  ∀ (c : Byte) (s : State), s.block.slots.wf = true → 2 ≤ c.toNat → c.toNat ≤ 253 →
    ∃ m : Memory, m.wf = true ∧ (∀ i < c.toNat, m.read i = 0) ∧ (∀ i, c.toNat ≤ i → m.read i = s.block.slots.read i) ∧
      exec (.init c) s = .next
        { s with
          block := { initDone := true, capacity := c, size := 0, head := 0, tail := 0, age := 1, slots := m }
          outbox := s.outbox ++ [responseWord .ok 0xFF] }

/-- `40_initialize.md` R91: a failed `INIT` changes nothing. -/
def Obligations.FailedInitChangesNothing : Prop :=
  ∀ (c : Byte) (s : State), c.toNat < 2 ∨ 253 < c.toNat →
    exec (.init c) s = .next { s with outbox := s.outbox ++ [responseWord .badArgument 0xFF] }

/-- `45_properties.md` R165: `INIT c` succeeds for exactly the values 2..253 and returns `BadArgument` for 0, 1, 254 and 255. -/
def Obligations.InitAcceptsExactly : Prop :=
  ∀ (c : Byte) (s : State),
    ((∃ t k, Answers (.init c) s t .ok k) ↔ 2 ≤ c.toNat ∧ c.toNat ≤ 253) ∧
      ((∃ t k, Answers (.init c) s t .badArgument k) ↔ c = 0 ∨ c = 1 ∨ c = 254 ∨ c = 255)

/-- `10_state.md` R28 and `60_exceptions.md` R172 (d): before an `INIT` has succeeded every other command is answered `BadArgument` and
changes nothing. -/
def Obligations.BadArgumentBeforeInit : Prop :=
  ∀ (a : Byte) (s : State), s.block.initDone = false →
    exec (.alloc a) s = .next { s with outbox := s.outbox ++ [responseWord .badArgument 0xFF] } ∧
      exec (.reserve a) s = .next { s with outbox := s.outbox ++ [responseWord .badArgument 0xFF] } ∧
      exec (.release a) s = .next { s with outbox := s.outbox ++ [responseWord .badArgument 0xFF] }

/-- `41_allocate_head.md` R101 to R103, the hit path: where the first `EMPTY` entry in scan order is at offset `j` from `head`, `ALLOC`
stamps that entry `k`, counts it, moves `head` just past it, advances `age`, moves `tail` to it only if `TAIL_REANCHOR = 1` and
`size = 0`, and answers `Ok(k)`; every other entry and everything else is as before. -/
def Obligations.AllocFillsFirstEmpty : Prop :=
  ∀ (a : Byte) (s : State) (j : Nat), s.block.slots.wf = true → s.block.initDone = true → s.block.capacity.toNat ≤ 253 →
    j < s.block.capacity.toNat → s.block.entry (idxAdd s.block.capacity s.block.head.toNat j) = 0 →
    (∀ j' < j, s.block.entry (idxAdd s.block.capacity s.block.head.toNat j') ≠ 0) →
    ∃ (k : Byte) (m : Memory), k.toNat = idxAdd s.block.capacity s.block.head.toNat j ∧ m.wf = true ∧
      m.read k.toNat = s.block.age ∧ (∀ i, i ≠ k.toNat → m.read i = s.block.slots.read i) ∧
      exec (.alloc a) s = .next
        { s with
          block :=
            { s.block with
              size := s.block.size + 1
              head := nextIdx s.block.capacity k
              tail := if s.tailReanchor = true ∧ s.block.size = 0 then k else s.block.tail
              age := nextAge s.block.age
              slots := m }
          outbox := s.outbox ++ [responseWord .ok k] }

/-- `41_allocate_head.md` R105 to R107, the overwrite path, with `42_tail_resync.md` R116, R117 and R119: where no entry is `EMPTY` and
the one at `tail` is live, `ALLOC` re-stamps it, sets `head` to it, leaves `size`, advances `age`, answers `OkOverwritten` with it, and
moves `tail` to the first entry after it that held the next age, or nowhere if none did. -/
def Obligations.AllocOverwritesTail : Prop :=
  ∀ (a : Byte) (s : State), s.block.slots.wf = true → s.block.initDone = true → s.block.capacity.toNat ≤ 253 →
    s.block.tail.toNat < s.block.capacity.toNat → (∀ i < s.block.capacity.toNat, s.block.entry i ≠ 0) →
    s.block.entry s.block.tail.toNat ≠ 255 →
    ∃ (tail' : Byte) (m : Memory),
      ((∃ d < s.block.capacity.toNat, tail'.toNat = idxAdd s.block.capacity s.block.tail.toNat (1 + d) ∧
            s.block.entry tail'.toNat = nextAge (s.block.entry s.block.tail.toNat) ∧
            ∀ d' < d, s.block.entry (idxAdd s.block.capacity s.block.tail.toNat (1 + d')) ≠
              nextAge (s.block.entry s.block.tail.toNat)) ∨
          (tail' = s.block.tail ∧
            ∀ i < s.block.capacity.toNat, s.block.entry i ≠ nextAge (s.block.entry s.block.tail.toNat))) ∧
      m.wf = true ∧ m.read s.block.tail.toNat = s.block.age ∧
      (∀ i, i ≠ s.block.tail.toNat → m.read i = s.block.slots.read i) ∧
      exec (.alloc a) s = .next
        { s with
          block := { s.block with head := s.block.tail, tail := tail', age := nextAge s.block.age, slots := m }
          outbox := s.outbox ++ [responseWord .okOverwritten s.block.tail] }

/-- `41_allocate_head.md` R104: where no entry is `EMPTY` and the one at `tail` is `RESERVED`, `ALLOC` answers `AllSlotsReserved` and
changes nothing, whatever the other entries are. -/
def Obligations.AllocRefusedAtReservedTail : Prop :=
  ∀ (a : Byte) (s : State), s.block.initDone = true → s.block.capacity.toNat ≤ 253 →
    s.block.tail.toNat < s.block.capacity.toNat → (∀ i < s.block.capacity.toNat, s.block.entry i ≠ 0) →
    s.block.entry s.block.tail.toNat = 255 →
    exec (.alloc a) s = .next { s with outbox := s.outbox ++ [responseWord .allSlotsReserved 0xFF] }

/-- `41_allocate_head.md` R106: an `ALLOC` answered `OkOverwritten` does not change `size`. -/
def Obligations.OverwriteKeepsSize : Prop :=
  ∀ (a k : Byte) (s t : State), Answers (.alloc a) s t .okOverwritten k → t.block.size = s.block.size

/-- `41_allocate_head.md` R107: after an `ALLOC` answered `OkOverwritten(k)`, `head` is the index `k` just overwritten, which was the
old `tail`, and not the index after it. -/
def Obligations.OverwriteLeavesHeadAtVictim : Prop :=
  ∀ (a k : Byte) (s t : State), Answers (.alloc a) s t .okOverwritten k →
    t.block.head = k ∧ k = s.block.tail

/-- `43_reserve_tail.md` R128, with `42_tail_resync.md` R116, R117 and R119: where a live entry is counted and the one at `tail` is
live, `RESERVE` marks it `RESERVED`, counts one fewer, answers `Ok` with it, and moves `tail` to the first entry after it that holds
the next age, or nowhere if none does; every other entry and everything else is as before. -/
def Obligations.ReserveTakesTail : Prop :=
  ∀ (a : Byte) (s : State), s.block.slots.wf = true → s.block.initDone = true → s.block.capacity.toNat ≤ 253 →
    s.block.tail.toNat < s.block.capacity.toNat → s.block.size ≠ 0 → s.block.entry s.block.tail.toNat ≠ 0 →
    s.block.entry s.block.tail.toNat ≠ 255 →
    ∃ (tail' : Byte) (m : Memory),
      ((∃ d < s.block.capacity.toNat, tail'.toNat = idxAdd s.block.capacity s.block.tail.toNat (1 + d) ∧
            s.block.entry tail'.toNat = nextAge (s.block.entry s.block.tail.toNat) ∧
            ∀ d' < d, s.block.entry (idxAdd s.block.capacity s.block.tail.toNat (1 + d')) ≠
              nextAge (s.block.entry s.block.tail.toNat)) ∨
          (tail' = s.block.tail ∧
            ∀ i < s.block.capacity.toNat, s.block.entry i ≠ nextAge (s.block.entry s.block.tail.toNat))) ∧
      m.wf = true ∧ m.read s.block.tail.toNat = 255 ∧
      (∀ i, i ≠ s.block.tail.toNat → m.read i = s.block.slots.read i) ∧
      exec (.reserve a) s = .next
        { s with
          block := { s.block with size := s.block.size - 1, tail := tail', slots := m }
          outbox := s.outbox ++ [responseWord .ok s.block.tail] }

/-- `43_reserve_tail.md` R126 and R127: the errors of `RESERVE`, in the order of its checks: `NoUsedSlots` in a drained pool whatever is at
`tail`, else `AllSlotsReserved` at a `RESERVED` tail entry, else `Fault` at an `EMPTY` one; the block is as before, and the `Fault`
response is put on record. -/
def Obligations.ReserveErrorsInOrder : Prop :=
  ∀ (a : Byte) (s : State), s.block.initDone = true → s.block.capacity.toNat ≤ 253 →
    s.block.tail.toNat < s.block.capacity.toNat →
    (s.block.size = 0 →
        exec (.reserve a) s = .next { s with outbox := s.outbox ++ [responseWord .noUsedSlots 0xFF] }) ∧
      (s.block.size ≠ 0 → s.block.entry s.block.tail.toNat = 255 →
        exec (.reserve a) s = .next { s with outbox := s.outbox ++ [responseWord .allSlotsReserved 0xFF] }) ∧
      (s.block.size ≠ 0 → s.block.entry s.block.tail.toNat = 0 →
        exec (.reserve a) s = .next { s with outbox := s.outbox ++ [responseWord .fault 0xFF], faulted := true })

/-- `44_release_reserved.md` R137: `RELEASE` of a `RESERVED` slot of the pool answers `Ok`, makes that one entry `EMPTY` and changes
nothing else. -/
def Obligations.ReleaseEmptiesOneEntry : Prop :=
  ∀ (i : Byte) (s : State), s.block.slots.wf = true → s.block.initDone = true → s.block.capacity.toNat ≤ 253 →
    i.toNat < s.block.capacity.toNat → s.block.entry i.toNat = 255 →
    ∃ m : Memory, m.wf = true ∧ m.read i.toNat = 0 ∧ (∀ k, k ≠ i.toNat → m.read k = s.block.slots.read k) ∧
      exec (.release i) s = .next
        { s with block := { s.block with slots := m }, outbox := s.outbox ++ [responseWord .ok 0xFF] }

/-- `20_memory.md` R53 and `45_properties.md` R164: `RELEASE` of an index at or above `capacity`, or of a slot that is not at present
`RESERVED`, answers `BadArgument` and changes nothing. -/
def Obligations.ReleaseRefused : Prop :=
  ∀ (i : Byte) (s : State), s.block.initDone = true → s.block.capacity.toNat ≤ 253 →
    s.block.capacity.toNat ≤ i.toNat ∨ s.block.entry i.toNat ≠ 255 →
    exec (.release i) s = .next { s with outbox := s.outbox ++ [responseWord .badArgument 0xFF] }

/-- `45_properties.md` R163: releasing the same index twice returns `BadArgument` on the second call and leaves the pool as it was. -/
def Obligations.DoubleReleaseRefused : Prop :=
  ∀ (i k : Byte) (s t : State), s.block.slots.wf = true → Answers (.release i) s t .ok k →
    exec (.release i) t = .next { t with outbox := t.outbox ++ [responseWord .badArgument 0xFF] }

/-- `60_exceptions.md` R177: a command that answers an error leaves every piece of state of the block as it was. Every successful one
changes some state (`ALLOC` at least `age`, `RESERVE` at least `size`, `RELEASE` its one entry), except an `INIT c` in exactly the
state a successful `INIT c` leaves. -/
def Obligations.ErrorsChangeNothing : Prop :=
  ∀ (i : Instr) (s t : State) (st : Status) (k : Byte), Answers i s t st k →
    (isError st = true → t.block = s.block) ∧
      (isError st = false → s.block.Inv →
        match i with
        | .init c =>
          t.block = s.block ↔
            s.block.initDone = true ∧ s.block.capacity = c ∧ s.block.size = 0 ∧ s.block.head = 0 ∧ s.block.tail = 0 ∧
              s.block.age = 1 ∧ ∀ i < c.toNat, s.block.entry i = 0
        | .alloc _ => t.block.age ≠ s.block.age
        | .reserve _ => t.block.size ≠ s.block.size
        | .release r => t.block.entry r.toNat ≠ s.block.entry r.toNat)

/-- `60_exceptions.md` R171: in every state of the invariant every command answers, with a status whose cause is the one the table
gives, and with the index `0xFF` where it is an error; the causes of two different statuses exclude each other; and the codes are the
table's. -/
def Obligations.StatusTable : Prop :=
  (∀ (i : Instr) (s : State), s.block.Inv →
      ∃ t st k, Answers i s t st k ∧ StatusCause s.block i st ∧ (isError st = true → k = 0xFF)) ∧
    (∀ (i : Instr) (b : Block) (st st' : Status), StatusCause b i st → StatusCause b i st' → st = st') ∧
    [Status.ok, .okOverwritten, .badArgument, .noUsedSlots, .allSlotsReserved, .fault].map statusCode = [0, 1, 2, 3, 4, 5]

/-- `40_initialize.md` R93: no command but a successful `INIT` writes `capacity`. -/
def Obligations.CapacityFixedUntilInit : Prop :=
  ∀ (i : Instr) (s t : State), exec i s = .next t → t.block.capacity ≠ s.block.capacity →
    ∃ c, i = .init c ∧ 2 ≤ c.toNat ∧ c.toNat ≤ 253 ∧ t.block.capacity = c

/-- `10_state.md` R28: `init_done` is set by a successful `INIT` and by nothing else, and no command clears it. -/
def Obligations.InitDoneSetOnlyByInit : Prop :=
  ∀ (i : Instr) (s t : State), exec i s = .next t →
    (t.block.initDone = true ↔ s.block.initDone = true ∨ ∃ c, i = .init c ∧ 2 ≤ c.toNat ∧ c.toNat ≤ 253)

/-- `10_state.md` R37: the transition table of one slot is complete. With any command every entry stays as it was, or `INIT` makes it
`EMPTY`, or `ALLOC` stamps an `EMPTY` one, or `ALLOC` re-stamps the live one at `tail`, or `RESERVE` reserves the live one at `tail`,
or `RELEASE` empties the `RESERVED` one it names. -/
def Obligations.SlotLifeCycle : Prop :=
  ∀ (i : Instr) (s t : State), s.block.Inv → exec i s = .next t → ∀ k : Byte,
    t.block.entry k.toNat = s.block.entry k.toNat ∨
      ((∃ c, i = .init c ∧ k.toNat < c.toNat) ∧ t.block.entry k.toNat = 0) ∨
      ((∃ a, i = .alloc a) ∧ s.block.entry k.toNat = 0 ∧ t.block.entry k.toNat = s.block.age ∧ isAge s.block.age = true) ∨
      ((∃ a, i = .alloc a) ∧ k = s.block.tail ∧ isAge (s.block.entry k.toNat) = true ∧ t.block.entry k.toNat = s.block.age ∧
        isAge s.block.age = true) ∨
      ((∃ a, i = .reserve a) ∧ k = s.block.tail ∧ isAge (s.block.entry k.toNat) = true ∧ t.block.entry k.toNat = 255) ∨
      (i = .release k ∧ s.block.entry k.toNat = 255 ∧ t.block.entry k.toNat = 0)

/-- `10_state.md` R34: the invariants of both settings are kept by every step, resets included: the capacity, the cursors and `age` stay
legal, `size` counts the live slots, live, reserved and empty slots add up to `capacity`; and the slot array stays in its canonical
form. -/
def Obligations.EveryStepKeepsInvariant : Prop :=
  ∀ s t : State, s.block.Inv → step s = .next t → t.block.Inv

/-- `10_state.md` R34, as the rule puts it: after a successful `INIT` every run of commands completes, for both values of
`TAIL_REANCHOR`, in a pool whose capacity, cursors and `age` are legal, whose `size` counts the live slots, and whose live, reserved
and empty slots add up to `capacity`. -/
def Obligations.RunsFromInitStayLegal : Prop :=
  ∀ (is : List Instr) (c : Byte) (s : State), s.block.slots.wf = true → 2 ≤ c.toNat → c.toNat ≤ 253 →
    ∃ t, execAll (.init c :: is) s = .next t ∧ t.block.initDone = true ∧ t.block.InRange ∧
      t.block.size.toNat = t.block.liveCount ∧
      t.block.size.toNat + t.block.reservedCount + t.block.emptyCount = t.block.capacity.toNat

/-- The invariant holds at the model's reset state (whose unspecified registers hold the values of log entries 1 and 2). -/
def Obligations.ResetMeetsInvariant : Prop :=
  State.reset.block.Inv ∧ State.reset.Ordered ∧ State.reset.Safe ∧ State.reset.block.initDone = false

/-- `60_exceptions.md` R186: no command is fatal and the block cannot hang: in every state of the invariant a step ends in a next state,
never in a fault or a refusal. -/
def Obligations.EveryStepAnswers : Prop :=
  ∀ s : State, s.block.Inv → ∃ t, step s = .next t

/-- `45_properties.md` R152, the window invariant, command by command: with `TAIL_REANCHOR = 1`, where the live slots in the order in which
they were stamped are the window `L`, every command answers and they are then the window that `queueAfter` makes of `L`; and a response
that names a slot it overwrote or reserved names the oldest. -/
def Obligations.CommandsKeepWindow : Prop :=
  ∀ (i : Instr) (s : State) (L : List Nat), s.tailReanchor = true → s.block.initDone = true → s.block.Inv → s.block.Window L →
    ∃ t st k, Answers i s t st k ∧ t.block.Window (queueAfter i st k.toNat L) ∧
      (namesOldest i st = true → L.head? = some k.toNat)

/-- `45_properties.md` R152: with `TAIL_REANCHOR = 1` every step, resets included, keeps the live slots a window. -/
def Obligations.EveryStepKeepsOrder : Prop :=
  ∀ s t : State, s.block.Inv → s.Ordered → step s = .next t → t.Ordered

/-- `45_properties.md` R149 and R150: in a window the live stamps are pairwise distinct, and the slot at `tail` is live and stamped `size`
steps of the wheel before `age`. -/
def Obligations.TailIsLiveAndOldest : Prop :=
  ∀ (b : Block) (L : List Nat), b.Inv → b.initDone = true → b.Window L →
    (∀ i ∈ L, ∀ j ∈ L, b.entry i = b.entry j → i = j) ∧
      (b.size ≠ 0 → isAge (b.entry b.tail.toNat) = true ∧ nextAge^[b.size.toNat] (b.entry b.tail.toNat) = b.age)

/-- `42_tail_resync.md` R121: in a window, re-sync on a live tail entry moves `tail` to the second-oldest live slot if there are two or
more, and leaves it if there is one. -/
def Obligations.ResyncFindsSecondOldest : Prop :=
  ∀ (b : Block) (i : Nat) (L : List Nat), b.Inv → b.initDone = true → b.Window (i :: L) →
    b.resync = some { b with tail := BitVec.ofNat 8 (L.headD i) } ∧ ((L.headD i ≠ i) ↔ 2 ≤ b.size.toNat)

/-- `45_properties.md` R154, first in first out, over any run of commands: with `TAIL_REANCHOR = 1`, from a window `L`, every run of
commands completes and gives one response a command; each response that names an overwritten or a reserved slot names the one at the
front of the queue of live slots, and the queue at the end is the window of the state at the end. -/
def Obligations.RunsAreFirstInFirstOut : Prop :=
  ∀ (is : List Instr) (s : State) (L : List Nat), s.tailReanchor = true → s.block.initDone = true → s.block.Inv →
    s.block.Window L →
    ∃ t rs L', execAll is s = .next t ∧ rs.map (fun r => r.1) = is ∧
      t.outbox = s.outbox ++ rs.map (fun r => responseWord r.2.1 r.2.2) ∧ queueRun L rs = some L' ∧ t.block.Window L'

/-- `45_properties.md` R153: with `TAIL_REANCHOR = 1`, `ALLOC` returns `AllSlotsReserved` if and only if all `capacity` entries are
`RESERVED`. -/
def Obligations.AllocRefusedIffAllReserved : Prop :=
  ∀ (a : Byte) (s : State), s.tailReanchor = true → s.block.initDone = true → s.block.Inv → s.Ordered →
    ((∃ t k, Answers (.alloc a) s t .allSlotsReserved k) ↔ ∀ i < s.block.capacity.toNat, s.block.entry i = 255)

/-- `43_reserve_tail.md` R129, its first half: with `TAIL_REANCHOR = 1`, `RESERVE` returns `Ok` exactly when `size > 0` and `NoUsedSlots`
exactly when `size = 0`, and never `AllSlotsReserved` or `Fault`. -/
def Obligations.ReserveOkIffLive : Prop :=
  ∀ (a : Byte) (s : State), s.tailReanchor = true → s.block.initDone = true → s.block.Inv → s.Ordered →
    ((∃ t k, Answers (.reserve a) s t .ok k) ↔ 0 < s.block.size.toNat) ∧
      ((∃ t k, Answers (.reserve a) s t .noUsedSlots k) ↔ s.block.size.toNat = 0) ∧
      (¬ ∃ t k, Answers (.reserve a) s t .allSlotsReserved k) ∧ ¬ ∃ t k, Answers (.reserve a) s t .fault k

/-- `60_exceptions.md` R175: with `TAIL_REANCHOR = 1` the `Fault` response is unreachable: a safe state of the two invariants steps to a
safe one. -/
def Obligations.NoFaultWithReanchor : Prop :=
  ∀ s t : State, s.tailReanchor = true → s.block.Inv → s.Ordered → s.Safe → step s = .next t → t.Safe

/-- `93_implementation_defined.md` U2: a `Fault` response is put on record, nothing else is, and no later step, a reset event included,
clears the record. -/
def Obligations.FaultRecordIsSticky : Prop :=
  (∀ s t : State, s.faulted = true → step s = .next t → t.faulted = true) ∧
    ∀ (i : Instr) (s t : State) (st : Status) (k : Byte), Answers i s t st k →
      (t.faulted = true ↔ s.faulted = true ∨ st = .fault)

/-- `45_properties.md` R166: the two settings of `TAIL_REANCHOR` do the same, response for response and state for state, on every command
but an `ALLOC` that takes the hit path while `size = 0` at an index other than `tail`. -/
def Obligations.SettingsAgree : Prop :=
  ∀ (i : Instr) (s : State),
    (∀ a k, i = .alloc a → s.block.findEmpty = .found k → s.block.size = 0 → k = s.block.tail.toNat) →
    ∀ t, exec i { s with tailReanchor := true } = .next t ↔
      exec i { s with tailReanchor := false } = .next { t with tailReanchor := false } ∧ t.tailReanchor = true

/-- `45_properties.md` R155, how a stale tail arises: with `TAIL_REANCHOR = 0` an `ALLOC` answered `Ok` leaves `tail` where it is; and (in
both settings) a `RESERVE` of the last live slot leaves `tail` on the slot it has just reserved. -/
def Obligations.StaleTailArises : Prop :=
  (∀ (a k : Byte) (s t : State), s.tailReanchor = false → Answers (.alloc a) s t .ok k → t.block.tail = s.block.tail) ∧
    ∀ (a k : Byte) (s t : State), s.block.Inv → s.block.size.toNat = 1 → Answers (.reserve a) s t .ok k →
      t.block.size = 0 ∧ t.block.tail = k ∧ t.block.entry k.toNat = 255

/-- `70_reset_and_hazards.md` R199: with `TAIL_REANCHOR = 1` a slot allocated in a drained pool is at once the one that `RESERVE`
returns. -/
def Obligations.AllocThenReserveInDrainedPool : Prop :=
  ∀ (a r k : Byte) (s t : State), s.tailReanchor = true → s.block.Inv → s.block.initDone = true → s.block.size = 0 →
    Answers (.alloc a) s t .ok k → ∃ u, Answers (.reserve r) t u .ok k ∧ u.block.entry k.toNat = 255 ∧ u.block.size = 0

/-- `45_properties.md` R146, fill: for every legal capacity `C`, `INIT C` and then `n ≤ C` times `ALLOC` returns the indices
`0 .. n-1` in order, each a plain `Ok`, stamped `1 .. n`; for both settings. -/
def Obligations.FillReturnsIndicesInOrder : Prop :=
  ∀ (c : Byte) (n : Nat) (s : State), s.block.slots.wf = true → 2 ≤ c.toNat → c.toNat ≤ 253 → n ≤ c.toNat →
    ∃ t, execAll (.init c :: List.replicate n (.alloc 0)) s = .next t ∧
      t.outbox = s.outbox ++ responseWord .ok 0xFF :: (List.range n).map (fun k => responseWord .ok (BitVec.ofNat 8 k)) ∧
      t.block.capacity = c ∧ t.block.size.toNat = n ∧ t.block.head.toNat = n % c.toNat ∧ t.block.tail = 0 ∧
      t.block.age.toNat = n + 1 ∧ (∀ i < n, (t.block.entry i).toNat = i + 1) ∧ ∀ i, n ≤ i → i < c.toNat → t.block.entry i = 0

/-- `45_properties.md` R147, oldest-first eviction: after `INIT C` and `C` times `ALLOC`, the `k`-th further `ALLOC` answers
`OkOverwritten((k - 1) mod C)`, leaves `head` there and `tail` at `k mod C`; the first leaves `slot[0] = C + 1` and
`age = next_age(C + 1)`; for both settings. -/
def Obligations.EvictionIsOldestFirst : Prop :=
  ∀ (c : Byte) (k : Nat) (s : State), s.block.slots.wf = true → 2 ≤ c.toNat → c.toNat ≤ 253 → 1 ≤ k →
    ∃ u t, execAll (.init c :: List.replicate (c.toNat + k - 1) (.alloc 0)) s = .next u ∧
      Answers (.alloc 0) u t .okOverwritten (BitVec.ofNat 8 ((k - 1) % c.toNat)) ∧
      t.block.head.toNat = (k - 1) % c.toNat ∧ t.block.tail.toNat = k % c.toNat ∧ t.block.size = c ∧
      (k = 1 → (t.block.entry 0).toNat = c.toNat + 1 ∧ t.block.age = nextAge (BitVec.ofNat 8 (c.toNat + 1)))

/-- `70_reset_and_hazards.md` R205: the bounds on slot-array accesses, read off the pseudocode, for each command and each way it ends. -/
def Obligations.AccessBounds : Prop :=
  ∀ (i : Instr) (s t : State) (st : Status) (k : Byte), s.block.Inv → Answers i s t st k →
    match i, st with
    | .init c, .ok => accesses i s.block = ⟨0, c.toNat⟩
    | .alloc _, .ok =>
      1 ≤ (accesses i s.block).reads ∧ (accesses i s.block).reads ≤ s.block.capacity.toNat ∧ (accesses i s.block).writes = 1
    | .alloc _, .okOverwritten =>
      s.block.capacity.toNat + 1 ≤ (accesses i s.block).reads ∧
        (accesses i s.block).reads ≤ s.block.capacity.toNat + 1 + s.block.capacity.toNat ∧ (accesses i s.block).writes = 1
    | .alloc _, .allSlotsReserved => accesses i s.block = ⟨s.block.capacity.toNat + 1, 0⟩
    | .reserve _, .ok =>
      1 ≤ (accesses i s.block).reads ∧ (accesses i s.block).reads ≤ 1 + s.block.capacity.toNat ∧
        (accesses i s.block).writes = 1
    | .release _, .ok => accesses i s.block = ⟨1, 1⟩
    | _, _ => (accesses i s.block).reads ≤ 1 ∧ (accesses i s.block).writes = 0 ∧
        (s.block.initDone = false → (accesses i s.block).reads = 0)
end

