-- ==== Sys2Proof/Laws/Memory.lean ====
section
/-! SUPPORT. The slot array: reading what was written, leaving the rest alone, keeping the canonical form. -/

namespace Sys2Proof.Machine

theorem Memory.wfFrom_cons {lo a : Nat} {v : Byte} {m : Memory} :
    Memory.wfFrom lo ((a, v) :: m) = true ↔
      lo ≤ a ∧ a < Config.depth ∧ v ≠ Memory.unlisted ∧ Memory.wfFrom (a + 1) m = true := by
  simp [Memory.wfFrom, and_assoc]

theorem Memory.wfFrom_mono {lo lo' : Nat} {m : Memory} (h : Memory.wfFrom lo m = true) (hlo : lo' ≤ lo) :
    Memory.wfFrom lo' m = true := by
  cases m with
  | nil => rfl
  | cons c m =>
    obtain ⟨a, v⟩ := c
    rw [Memory.wfFrom_cons] at h ⊢
    exact ⟨hlo.trans h.1, h.2⟩

/-- Below the first index of a canonical list nothing is listed. -/
theorem Memory.read_below {lo a : Nat} {m : Memory} (h : Memory.wfFrom lo m = true) (ha : a < lo) :
    m.read a = Memory.unlisted := by
  induction m generalizing lo with
  | nil => rfl
  | cons c m ih =>
    obtain ⟨b, w⟩ := c
    rw [Memory.wfFrom_cons] at h
    rw [Memory.read, if_neg (by omega)]
    exact ih h.2.2.2 (by omega)

/-- No entry is listed from `depth` on. -/
theorem Memory.read_beyond {lo a : Nat} {m : Memory} (h : Memory.wfFrom lo m = true) (ha : Config.depth ≤ a) :
    m.read a = Memory.unlisted := by
  induction m generalizing lo with
  | nil => rfl
  | cons c m ih =>
    obtain ⟨b, w⟩ := c
    rw [Memory.wfFrom_cons] at h
    rw [Memory.read, if_neg (by omega)]
    exact ih h.2.2.2

theorem Memory.put_wf {lo a : Nat} {v : Byte} {m : Memory} (h : Memory.wfFrom lo m = true) (hlo : lo ≤ a)
    (ha : a < Config.depth) : Memory.wfFrom lo (m.put a v) = true := by
  induction m generalizing lo with
  | nil =>
    rw [Memory.put]
    split
    · rfl
    · exact Memory.wfFrom_cons.2 ⟨hlo, ha, by assumption, rfl⟩
  | cons c m ih =>
    obtain ⟨b, w⟩ := c
    have h' := Memory.wfFrom_cons.1 h
    rw [Memory.put]
    split
    · split
      · exact h
      · exact Memory.wfFrom_cons.2 ⟨hlo, ha, by assumption, Memory.wfFrom_cons.2 ⟨by omega, h'.2⟩⟩
    · split
      · subst_vars
        split
        · exact Memory.wfFrom_mono h'.2.2.2 (by omega)
        · exact Memory.wfFrom_cons.2 ⟨hlo, ha, by assumption, h'.2.2.2⟩
      · exact Memory.wfFrom_cons.2 ⟨h'.1, h'.2.1, h'.2.2.1, ih h'.2.2.2 (by omega)⟩

theorem Memory.read_put {lo a : Nat} {v : Byte} {m : Memory} (h : Memory.wfFrom lo m = true) (i : Nat) :
    (m.put a v).read i = if i = a then v else m.read i := by
  induction m generalizing lo with
  | nil =>
    rw [Memory.put]
    by_cases hv : v = Memory.unlisted
    · rw [if_pos hv, hv]
      split <;> rfl
    · rw [if_neg hv, Memory.read]
      simp only [eq_comm (a := i)]
      rfl
  | cons c m ih =>
    obtain ⟨b, w⟩ := c
    have h' := Memory.wfFrom_cons.1 h
    rw [Memory.put]
    by_cases hab : a < b
    · rw [if_pos hab]
      by_cases hv : v = Memory.unlisted
      · rw [if_pos hv]
        split
        · subst_vars
          exact Memory.read_below (lo := b) (Memory.wfFrom_cons.2 ⟨le_refl b, h'.2⟩) hab
        · rfl
      · rw [if_neg hv, Memory.read]
        simp only [eq_comm (a := i)]
    · rw [if_neg hab]
      by_cases he : a = b
      · subst he
        rw [if_pos rfl]
        by_cases hv : v = Memory.unlisted
        · rw [if_pos hv]
          split
          · subst_vars
            exact Memory.read_below h'.2.2.2 (by omega)
          · rw [Memory.read, if_neg (by omega)]
        · rw [if_neg hv, Memory.read, Memory.read]
          by_cases hi : i = a
          · simp [hi]
          · simp [hi, Ne.symm hi]
      · rw [if_neg he, Memory.read, Memory.read, ih h'.2.2.2]
        by_cases hb : b = i
        · rw [if_pos hb, if_pos hb, if_neg (by omega)]
        · rw [if_neg hb, if_neg hb]

/-- Writing keeps the canonical form. -/
theorem Memory.write_wf {m : Memory} (h : m.wf = true) (a : Nat) (v : Byte) : (m.write a v).wf = true := by
  rw [Memory.write]
  split
  · exact Memory.put_wf h (Nat.zero_le a) (by assumption)
  · exact h

/-- What an entry reads as after a write to an entry that exists. -/
theorem Memory.read_write {m : Memory} (h : m.wf = true) {a : Nat} (ha : a < Config.depth) (v : Byte) (i : Nat) :
    (m.write a v).read i = if i = a then v else m.read i := by
  rw [Memory.write, if_pos ha]
  exact Memory.read_put h i

/-- A write leaves every other entry alone. -/
theorem Memory.read_write_other {m : Memory} (h : m.wf = true) (a : Nat) (v : Byte) {i : Nat} (hi : i ≠ a) :
    (m.write a v).read i = m.read i := by
  by_cases ha : a < Config.depth
  · rw [Memory.read_write h ha, if_neg hi]
  · rw [Memory.write, if_neg ha]

/-- Storing the first `n` entries keeps the canonical form. -/
theorem Memory.fill_wf {m : Memory} (h : m.wf = true) (f : Nat → Byte) (n : Nat) : (m.fill f n).wf = true := by
  induction n with
  | zero => exact h
  | succ n ih => exact Memory.write_wf ih n (f n)

/-- What an entry reads as after the first `n` entries are stored. -/
theorem Memory.read_fill {m : Memory} (h : m.wf = true) (f : Nat → Byte) {n : Nat} (hn : n ≤ Config.depth) (i : Nat) :
    (m.fill f n).read i = if i < n then f i else m.read i := by
  induction n with
  | zero => simp [Memory.fill]
  | succ n ih =>
    rw [Memory.fill, Memory.read_write (Memory.fill_wf h f n) (by omega), ih (by omega)]
    by_cases hi : i = n
    · subst hi; simp
    · by_cases hlt : i < n
      · simp [hi, hlt, Nat.lt_succ_of_lt hlt]
      · rw [if_neg hi, if_neg hlt, if_neg (by omega)]

/-- Two canonical arrays that read alike everywhere are the same list. -/
theorem Memory.ext_from {lo : Nat} {m n : Memory} (hm : Memory.wfFrom lo m = true) (hn : Memory.wfFrom lo n = true)
    (h : ∀ i, m.read i = n.read i) : m = n := by
  induction m generalizing lo n with
  | nil =>
    cases n with
    | nil => rfl
    | cons d n =>
      obtain ⟨b, w⟩ := d
      have h' := h b
      rw [Memory.read, Memory.read, if_pos rfl] at h'
      exact absurd h'.symm (Memory.wfFrom_cons.1 hn).2.2.1
  | cons c m ih =>
    obtain ⟨a, v⟩ := c
    have hm' := Memory.wfFrom_cons.1 hm
    cases n with
    | nil =>
      have h' := h a
      rw [Memory.read, Memory.read, if_pos rfl] at h'
      exact absurd h' hm'.2.2.1
    | cons d n =>
      obtain ⟨b, w⟩ := d
      have hn' := Memory.wfFrom_cons.1 hn
      have hab : a = b := by
        rcases Nat.lt_trichotomy a b with hlt | heq | hlt
        · have h' := h a
          rw [Memory.read, if_pos rfl, Memory.read, if_neg (by omega),
            Memory.read_below hn'.2.2.2 (by omega)] at h'
          exact absurd h' hm'.2.2.1
        · exact heq
        · have h' := h b
          rw [Memory.read, if_neg (by omega), Memory.read_below hm'.2.2.2 (by omega), Memory.read, if_pos rfl] at h'
          exact absurd h'.symm hn'.2.2.1
      subst hab
      have hv : v = w := by
        have h' := h a
        rwa [Memory.read, if_pos rfl, Memory.read, if_pos rfl] at h'
      subst hv
      refine congrArg _ (ih hm'.2.2.2 hn'.2.2.2 fun i => ?_)
      by_cases hi : a = i
      · subst hi
        rw [Memory.read_below hm'.2.2.2 (by omega), Memory.read_below hn'.2.2.2 (by omega)]
      · have h' := h i
        rwa [Memory.read, if_neg hi, Memory.read, if_neg hi] at h'

/-- Two canonical arrays that read alike everywhere are the same list. -/
theorem Memory.ext_read {m n : Memory} (hm : m.wf = true) (hn : n.wf = true) (h : ∀ i, m.read i = n.read i) : m = n :=
  Memory.ext_from hm hn h

end Sys2Proof.Machine
end

