-- ==== Sys2Proof/Laws/Operands.lean ====
section
/-! SUPPORT. The two successor functions, the access to one entry, and what a scan answers. -/

namespace Sys2Proof.Machine

theorem succ_toNat (a : Byte) (h : a.toNat < 255) : (a + 1).toNat = a.toNat + 1 := by
  have h1 : (1 : Byte).toNat = 1 := rfl
  rw [BitVec.toNat_add, h1]
  omega

theorem nextAge_toNat (a : Byte) (h1 : 1 ≤ a.toNat) (h2 : a.toNat ≤ 254) :
    (nextAge a).toNat = if a.toNat = 254 then 1 else a.toNat + 1 := by
  have : a = Config.ageMax ↔ a.toNat = 254 := by
    constructor
    · rintro rfl; rfl
    · intro h; exact BitVec.eq_of_toNat_eq h
  rw [nextAge]
  by_cases h : a = Config.ageMax
  · rw [if_pos h, if_pos (this.1 h)]; rfl
  · rw [if_neg h, if_neg (fun e => h (this.2 e))]
    have := mt this.2 h
    exact succ_toNat a (by omega)

/-- `next_age` maps 1..254 to 1..254, so no stamp is a sentinel (`00_scope.md` R12). -/
theorem nextAge_range (a : Byte) (h1 : 1 ≤ a.toNat) (h2 : a.toNat ≤ 254) :
    1 ≤ (nextAge a).toNat ∧ (nextAge a).toNat ≤ 254 := by
  rw [nextAge_toNat a h1 h2]; split <;> omega

theorem nextAge_ne_self (a : Byte) (h1 : 1 ≤ a.toNat) (h2 : a.toNat ≤ 254) : nextAge a ≠ a := by
  intro h
  have := congrArg BitVec.toNat h
  rw [nextAge_toNat a h1 h2] at this
  split at this <;> omega

theorem nextIdx_toNat (c i : Byte) (h : i.toNat < c.toNat) : (nextIdx c i).toNat = (i.toNat + 1) % c.toNat := by
  have hc := c.isLt
  have hs : (i + 1).toNat = i.toNat + 1 := succ_toNat i (by omega)
  rw [nextIdx]
  by_cases he : i + 1 = c
  · rw [if_pos he, ← hs, he, Nat.mod_self]; rfl
  · have hlt : i.toNat + 1 ≠ c.toNat := fun hh => he (BitVec.eq_of_toNat_eq (hs.trans hh))
    rw [if_neg he, hs, Nat.mod_eq_of_lt (by omega)]

theorem nextIdx_lt {c i : Byte} (h : i.toNat < c.toNat) : (nextIdx c i).toNat < c.toNat := by
  rw [nextIdx_toNat c i h]
  exact Nat.mod_lt _ (by omega)

/-- An index below a capacity fits a cursor. -/
theorem cursor_toNat {k : Nat} {c : Byte} (h : k < c.toNat) : (BitVec.ofNat 8 k).toNat = k := by
  have := c.isLt
  rw [BitVec.toNat_ofNat, Nat.mod_eq_of_lt (by omega)]

theorem idxAdd_lt (c : Byte) (i j : Nat) (h : 0 < c.toNat) : idxAdd c i j < c.toNat :=
  Nat.mod_lt _ h

theorem isAge_iff (v : Byte) : isAge v = true ↔ 1 ≤ v.toNat ∧ v.toNat ≤ 254 := by
  simp [isAge, Config.ageMin, Config.ageMax]

theorem isEmpty_iff (v : Byte) : isEmpty v = true ↔ v = 0 := by
  simp [isEmpty, Config.empty]

theorem isReserved_iff (v : Byte) : isReserved v = true ↔ v = 255 := by
  simp [isReserved, Config.reserved]

/-- A byte that is neither sentinel is an age (`00_scope.md` R13). -/
theorem isAge_of_ne {v : Byte} (h0 : v ≠ 0) (h1 : v ≠ 255) : isAge v = true := by
  rw [isAge_iff]
  have a : v.toNat ≠ 0 := fun h => h0 (BitVec.eq_of_toNat_eq h)
  have b : v.toNat ≠ 255 := fun h => h1 (BitVec.eq_of_toNat_eq h)
  have := v.isLt
  omega

theorem Block.slot?_eq_some {b : Block} {i : Nat} {v : Byte} :
    b.slot? i = some v ↔ i < b.capacity.toNat ∧ i < Config.depth ∧ b.entry i = v := by
  rw [Block.slot?]
  split
  · next h => simp [h.1, h.2]
  · next h =>
    constructor
    · intro e; cases e
    · intro e; exact absurd ⟨e.1, e.2.1⟩ h

theorem Block.slot?_of_lt {b : Block} {i : Nat} (h : i < b.capacity.toNat) (hd : b.capacity.toNat ≤ Config.depth) :
    b.slot? i = some (b.entry i) :=
  Block.slot?_eq_some.2 ⟨h, by omega, rfl⟩

/-- What a scan can answer in a pool whose capacity is legal: the first match, in probe order, or that no probed entry matches. -/
theorem Block.scan_cases (b : Block) (want : Byte) (base fuel j : Nat) (h0 : 0 < b.capacity.toNat)
    (hd : b.capacity.toNat ≤ Config.depth) :
    (∃ d, d < fuel ∧ b.scan want base fuel j = .found (idxAdd b.capacity base (j + d)) ∧
        b.entry (idxAdd b.capacity base (j + d)) = want ∧
        ∀ d' < d, b.entry (idxAdd b.capacity base (j + d')) ≠ want) ∨
      (b.scan want base fuel j = .missed ∧ ∀ d < fuel, b.entry (idxAdd b.capacity base (j + d)) ≠ want) := by
  induction fuel generalizing j with
  | zero => exact .inr ⟨rfl, fun d hd => absurd hd (by omega)⟩
  | succ fuel ih =>
    have hs := Block.slot?_of_lt (idxAdd_lt b.capacity base j h0) hd
    by_cases he : b.entry (idxAdd b.capacity base j) = want
    · exact .inl ⟨0, by omega, by simp [Block.scan, hs, he], he, fun d' h => absurd h (by omega)⟩
    · have hstep : b.scan want base (fuel + 1) j = b.scan want base fuel (j + 1) := by
        rw [Block.scan, hs]
        simp [he]
      have shift : ∀ d, j + 1 + d = j + (d + 1) := fun d => by omega
      rcases ih (j + 1) with ⟨d, hdf, hf, hw, hno⟩ | ⟨hm, hno⟩
      · refine .inl ⟨d + 1, by omega, ?_, ?_, ?_⟩
        · rw [hstep, hf, shift]
        · rw [← shift]; exact hw
        · intro d' hd'
          cases d' with
          | zero => exact he
          | succ d' => rw [← shift]; exact hno d' (by omega)
      · refine .inr ⟨hstep.trans hm, fun d hdf => ?_⟩
        cases d with
        | zero => exact he
        | succ d => rw [← shift]; exact hno d (by omega)

/-- A scan that finds an entry finds one below `capacity` that exists and holds the byte looked for. -/
theorem Block.scan_found {b : Block} {want : Byte} {base fuel j k : Nat} (h : b.scan want base fuel j = .found k) :
    k < b.capacity.toNat ∧ k < Config.depth ∧ b.entry k = want := by
  induction fuel generalizing j with
  | zero => cases h
  | succ fuel ih =>
    rw [Block.scan] at h
    split at h
    · cases h
    · next v hv =>
      split at h
      · next he =>
        cases h
        have := Block.slot?_eq_some.1 hv
        exact ⟨this.1, this.2.1, this.2.2.trans he⟩
      · exact ih h

/-- Every index below `capacity` is probed by a scan of `capacity` probes. -/
theorem idxAdd_covers {c : Byte} {base i j : Nat} (hi : i < c.toNat) :
    ∃ d, d < c.toNat ∧ idxAdd c base (j + d) = i := by
  have hc : 0 < c.toNat := by omega
  have hm := Nat.mod_lt (base + j) hc
  have e : ∀ d, idxAdd c base (j + d) = ((base + j) % c.toNat + d) % c.toNat := fun d => by
    rw [idxAdd, Nat.mod_add_mod, Nat.add_assoc]
  by_cases h : (base + j) % c.toNat ≤ i
  · exact ⟨i - (base + j) % c.toNat, by omega, by rw [e, Nat.mod_eq_of_lt (by omega)]; omega⟩
  · refine ⟨i + c.toNat - (base + j) % c.toNat, by omega, ?_⟩
    rw [e, show (base + j) % c.toNat + (i + c.toNat - (base + j) % c.toNat) = i + c.toNat by omega, Nat.add_mod_right,
      Nat.mod_eq_of_lt hi]

/-- A scan of `capacity` probes misses exactly when no entry of the pool holds the byte looked for. -/
theorem Block.scan_missed {b : Block} {want : Byte} {base j : Nat} (h0 : 0 < b.capacity.toNat)
    (hd : b.capacity.toNat ≤ Config.depth) :
    b.scan want base b.capacity.toNat j = .missed ↔ ∀ i < b.capacity.toNat, b.entry i ≠ want := by
  rcases Block.scan_cases b want base b.capacity.toNat j h0 hd with ⟨d, hdf, hf, hw, _⟩ | ⟨hm, hno⟩
  · rw [hf]
    exact ⟨fun e => (by cases e), fun h => absurd hw (h _ (idxAdd_lt _ _ _ h0))⟩
  · rw [hm]
    refine ⟨fun _ i hi => ?_, fun _ => rfl⟩
    obtain ⟨d, hdc, rfl⟩ := idxAdd_covers (base := base) (j := j) hi
    exact hno d hdc

/-- In a pool whose capacity is legal no probe falls outside it. -/
theorem Block.scan_ne_outOfRange (b : Block) (want : Byte) (base fuel j : Nat) (h0 : 0 < b.capacity.toNat)
    (hd : b.capacity.toNat ≤ Config.depth) : b.scan want base fuel j ≠ .outOfRange := by
  rcases Block.scan_cases b want base fuel j h0 hd with ⟨_, _, hf, _⟩ | ⟨hm, _⟩
  · rw [hf]; exact fun e => by cases e
  · rw [hm]; exact fun e => by cases e

/-- The `EMPTY` scan answers the entry at the first offset from `head` that is `EMPTY` (`41_allocate_head.md` R101). -/
theorem Block.findEmpty_of_first {b : Block} {j : Nat} (hd : b.capacity.toNat ≤ Config.depth) (hj : j < b.capacity.toNat)
    (he : b.entry (idxAdd b.capacity b.head.toNat j) = Config.empty)
    (hno : ∀ j' < j, b.entry (idxAdd b.capacity b.head.toNat j') ≠ Config.empty) :
    b.findEmpty = .found (idxAdd b.capacity b.head.toNat j) := by
  rw [Block.findEmpty]
  rcases Block.scan_cases b Config.empty b.head.toNat b.capacity.toNat 0 (by omega) hd with ⟨d, hdf, hf, hw, hn⟩ | ⟨_, hn⟩
  · simp only [Nat.zero_add] at hf hw hn
    rcases Nat.lt_trichotomy d j with h | h | h
    · exact absurd hw (hno d h)
    · rw [hf, h]
    · exact absurd he (hn j h)
  · simp only [Nat.zero_add] at hn
    exact absurd he (hn j hj)

/-- The re-sync scan answers the entry at the first offset from `tail` that holds the next age (`42_tail_resync.md` R116, R119). -/
theorem Block.findNextAge_of_first {b : Block} {v : Byte} {d : Nat} (hd : b.capacity.toNat ≤ Config.depth)
    (hdc : d < b.capacity.toNat) (he : b.entry (idxAdd b.capacity b.tail.toNat (1 + d)) = nextAge v)
    (hno : ∀ d' < d, b.entry (idxAdd b.capacity b.tail.toNat (1 + d')) ≠ nextAge v) :
    b.findNextAge v = .found (idxAdd b.capacity b.tail.toNat (1 + d)) := by
  rw [Block.findNextAge]
  rcases Block.scan_cases b (nextAge v) b.tail.toNat b.capacity.toNat 1 (by omega) hd with ⟨d', hdf, hf, hw, hn⟩ | ⟨_, hn⟩
  · rcases Nat.lt_trichotomy d' d with h | h | h
    · exact absurd hw (hno d' h)
    · rw [hf, h]
    · exact absurd he (hn d h)
  · exact absurd he (hn d hdc)

end Sys2Proof.Machine
end

