-- ==== Sys2Proof/Laws/State.lean ====
section
/-! SUPPORT. One lemma per field per named update of the state. -/

namespace Sys2Proof.Machine

@[simp] theorem State.reply_block (s : State) (b : Block) (st : Status) (k : Byte) : (s.reply b st k).block = b := rfl
@[simp] theorem State.reply_tailReanchor (s : State) (b : Block) (st : Status) (k : Byte) :
    (s.reply b st k).tailReanchor = s.tailReanchor := rfl
@[simp] theorem State.reply_inbox (s : State) (b : Block) (st : Status) (k : Byte) : (s.reply b st k).inbox = s.inbox := rfl
@[simp] theorem State.reply_outbox (s : State) (b : Block) (st : Status) (k : Byte) :
    (s.reply b st k).outbox = s.outbox ++ [responseWord st k] := rfl
@[simp] theorem State.reply_faulted (s : State) (b : Block) (st : Status) (k : Byte) :
    (s.reply b st k).faulted = (s.faulted || decide (st = .fault)) := rfl
@[simp] theorem State.reply_freeUsed (s : State) (b : Block) (st : Status) (k : Byte) :
    (s.reply b st k).freeUsed = s.freeUsed := rfl

@[simp] theorem State.take_block (s : State) (es : List HostEvent) : (s.take es).block = s.block := rfl
@[simp] theorem State.take_tailReanchor (s : State) (es : List HostEvent) : (s.take es).tailReanchor = s.tailReanchor := rfl
@[simp] theorem State.take_inbox (s : State) (es : List HostEvent) : (s.take es).inbox = es := rfl
@[simp] theorem State.take_outbox (s : State) (es : List HostEvent) : (s.take es).outbox = s.outbox := rfl
@[simp] theorem State.take_faulted (s : State) (es : List HostEvent) : (s.take es).faulted = s.faulted := rfl
@[simp] theorem State.take_freeUsed (s : State) (es : List HostEvent) : (s.take es).freeUsed = s.freeUsed := rfl

@[simp] theorem State.drawn_block (s : State) : s.drawn.block = s.block := rfl
@[simp] theorem State.drawn_tailReanchor (s : State) : s.drawn.tailReanchor = s.tailReanchor := rfl
@[simp] theorem State.drawn_inbox (s : State) : s.drawn.inbox = s.inbox := rfl
@[simp] theorem State.drawn_outbox (s : State) : s.drawn.outbox = s.outbox := rfl
@[simp] theorem State.drawn_faulted (s : State) : s.drawn.faulted = s.faulted := rfl
@[simp] theorem State.drawn_freeUsed (s : State) : s.drawn.freeUsed = s.freeUsed + 1 := rfl

@[simp] theorem State.hardwareReset_block (s : State) : s.hardwareReset.block = Block.afterReset s.freeUsed := rfl
@[simp] theorem State.hardwareReset_tailReanchor (s : State) : s.hardwareReset.tailReanchor = s.tailReanchor := rfl
@[simp] theorem State.hardwareReset_inbox (s : State) : s.hardwareReset.inbox = s.inbox := rfl
@[simp] theorem State.hardwareReset_outbox (s : State) : s.hardwareReset.outbox = s.outbox := rfl
@[simp] theorem State.hardwareReset_faulted (s : State) : s.hardwareReset.faulted = s.faulted := rfl
@[simp] theorem State.hardwareReset_freeUsed (s : State) : s.hardwareReset.freeUsed = s.freeUsed + resetDraws := rfl

@[simp] theorem State.present_block (s : State) (w : CmdWord) : (s.present w).block = s.block := rfl
@[simp] theorem State.present_tailReanchor (s : State) (w : CmdWord) : (s.present w).tailReanchor = s.tailReanchor := rfl
@[simp] theorem State.present_inbox (s : State) (w : CmdWord) : (s.present w).inbox = .command w :: s.inbox := rfl
@[simp] theorem State.present_outbox (s : State) (w : CmdWord) : (s.present w).outbox = s.outbox := rfl
@[simp] theorem State.present_faulted (s : State) (w : CmdWord) : (s.present w).faulted = s.faulted := rfl
@[simp] theorem State.present_freeUsed (s : State) (w : CmdWord) : (s.present w).freeUsed = s.freeUsed := rfl

@[simp] theorem Block.store_initDone (b : Block) (i : Nat) (v : Byte) : (b.store i v).initDone = b.initDone := rfl
@[simp] theorem Block.store_capacity (b : Block) (i : Nat) (v : Byte) : (b.store i v).capacity = b.capacity := rfl
@[simp] theorem Block.store_size (b : Block) (i : Nat) (v : Byte) : (b.store i v).size = b.size := rfl
@[simp] theorem Block.store_head (b : Block) (i : Nat) (v : Byte) : (b.store i v).head = b.head := rfl
@[simp] theorem Block.store_tail (b : Block) (i : Nat) (v : Byte) : (b.store i v).tail = b.tail := rfl
@[simp] theorem Block.store_age (b : Block) (i : Nat) (v : Byte) : (b.store i v).age = b.age := rfl
@[simp] theorem Block.store_slots (b : Block) (i : Nat) (v : Byte) : (b.store i v).slots = b.slots.write i v := rfl

@[simp] theorem Block.create_initDone (b : Block) (c : Byte) : (b.create c).initDone = true := rfl
@[simp] theorem Block.create_capacity (b : Block) (c : Byte) : (b.create c).capacity = c := rfl
@[simp] theorem Block.create_size (b : Block) (c : Byte) : (b.create c).size = 0 := rfl
@[simp] theorem Block.create_head (b : Block) (c : Byte) : (b.create c).head = 0 := rfl
@[simp] theorem Block.create_tail (b : Block) (c : Byte) : (b.create c).tail = 0 := rfl
@[simp] theorem Block.create_age (b : Block) (c : Byte) : (b.create c).age = 1 := rfl
@[simp] theorem Block.create_slots (b : Block) (c : Byte) :
    (b.create c).slots = b.slots.fill (fun _ => Config.empty) c.toNat := rfl

@[simp] theorem Block.fillSlot_initDone (b : Block) (ta : Bool) (k : Nat) : (b.fillSlot ta k).initDone = b.initDone := rfl
@[simp] theorem Block.fillSlot_capacity (b : Block) (ta : Bool) (k : Nat) : (b.fillSlot ta k).capacity = b.capacity := rfl
@[simp] theorem Block.fillSlot_size (b : Block) (ta : Bool) (k : Nat) : (b.fillSlot ta k).size = b.size + 1 := rfl
@[simp] theorem Block.fillSlot_head (b : Block) (ta : Bool) (k : Nat) :
    (b.fillSlot ta k).head = nextIdx b.capacity (BitVec.ofNat 8 k) := rfl
@[simp] theorem Block.fillSlot_tail (b : Block) (ta : Bool) (k : Nat) :
    (b.fillSlot ta k).tail = if ta = true ∧ b.size = 0 then BitVec.ofNat 8 k else b.tail := rfl
@[simp] theorem Block.fillSlot_age (b : Block) (ta : Bool) (k : Nat) : (b.fillSlot ta k).age = nextAge b.age := rfl
@[simp] theorem Block.fillSlot_slots (b : Block) (ta : Bool) (k : Nat) : (b.fillSlot ta k).slots = b.slots.write k b.age := rfl

@[simp] theorem Block.restamp_initDone (b : Block) (t : Byte) : (b.restamp t).initDone = b.initDone := rfl
@[simp] theorem Block.restamp_capacity (b : Block) (t : Byte) : (b.restamp t).capacity = b.capacity := rfl
@[simp] theorem Block.restamp_size (b : Block) (t : Byte) : (b.restamp t).size = b.size := rfl
@[simp] theorem Block.restamp_head (b : Block) (t : Byte) : (b.restamp t).head = t := rfl
@[simp] theorem Block.restamp_tail (b : Block) (t : Byte) : (b.restamp t).tail = b.tail := rfl
@[simp] theorem Block.restamp_age (b : Block) (t : Byte) : (b.restamp t).age = nextAge b.age := rfl
@[simp] theorem Block.restamp_slots (b : Block) (t : Byte) : (b.restamp t).slots = b.slots.write t.toNat b.age := rfl

@[simp] theorem Block.claim_initDone (b : Block) (t : Byte) : (b.claim t).initDone = b.initDone := rfl
@[simp] theorem Block.claim_capacity (b : Block) (t : Byte) : (b.claim t).capacity = b.capacity := rfl
@[simp] theorem Block.claim_size (b : Block) (t : Byte) : (b.claim t).size = b.size - 1 := rfl
@[simp] theorem Block.claim_head (b : Block) (t : Byte) : (b.claim t).head = b.head := rfl
@[simp] theorem Block.claim_tail (b : Block) (t : Byte) : (b.claim t).tail = b.tail := rfl
@[simp] theorem Block.claim_age (b : Block) (t : Byte) : (b.claim t).age = b.age := rfl
@[simp] theorem Block.claim_slots (b : Block) (t : Byte) : (b.claim t).slots = b.slots.write t.toNat Config.reserved := rfl

@[simp] theorem Block.afterReset_initDone (n : Nat) : (Block.afterReset n).initDone = false := rfl
@[simp] theorem Block.afterReset_slots (n : Nat) : (Block.afterReset n).slots = Memory.free (n + 5) Config.depth := rfl

end Sys2Proof.Machine
end

