-- ==== Sys2Proof/Laws/Ops.lean ====
section
/-! SUPPORT. What each shared operation can do, said once. -/

namespace Sys2Proof.Machine

/-- An error leaves the block as it was and gives one response (`60_exceptions.md` R177). -/
theorem State.raise_eq (s : State) (e : Status) : s.raise e = .next (s.reply s.block e Config.noIndex) := rfl

theorem State.respond_eq (s : State) (b : Block) (st : Status) (k : Byte) : s.respond b st k = .next (s.reply b st k) := rfl

/-- Re-sync changes `tail` alone, and moves it only to an entry of the pool that holds the next age. -/
theorem Block.resync_cases {b b' : Block} (h : b.resync = some b') :
    ∃ v, b.slot? b.tail.toNat = some v ∧
      ((∃ k, b.findNextAge v = .found k ∧ k < b.capacity.toNat ∧ k < Config.depth ∧ b.entry k = nextAge v ∧
          b' = { b with tail := BitVec.ofNat 8 k }) ∨
        (b.findNextAge v = .missed ∧ b' = b)) := by
  rw [Block.resync] at h
  split at h
  · cases h
  · next v hv =>
    refine ⟨v, hv, ?_⟩
    split at h
    · next k hk =>
      have := Block.scan_found hk
      exact .inl ⟨k, hk, this.1, this.2.1, this.2.2, by simpa using h.symm⟩
    · next hm => exact .inr ⟨hm, by simpa using h.symm⟩
    · cases h

/-- Re-sync always ends in a pool whose cursors are legal. -/
theorem Block.resync_isSome (b : Block) (ht : b.tail.toNat < b.capacity.toNat) (hd : b.capacity.toNat ≤ Config.depth) :
    ∃ b', b.resync = some b' := by
  rw [Block.resync, Block.slot?_of_lt ht hd]
  have := Block.scan_ne_outOfRange b (nextAge (b.entry b.tail.toNat)) b.tail.toNat b.capacity.toNat 1 (by omega) hd
  cases h : b.findNextAge (b.entry b.tail.toNat) with
  | found k => simp only [h]; exact ⟨_, rfl⟩
  | missed => simp only [h]; exact ⟨_, rfl⟩
  | outOfRange => exact absurd h this

/-- Re-sync leaves everything but `tail`. -/
theorem Block.resync_frame {b b' : Block} (h : b.resync = some b') :
    b'.initDone = b.initDone ∧ b'.capacity = b.capacity ∧ b'.size = b.size ∧ b'.head = b.head ∧ b'.age = b.age ∧
      b'.slots = b.slots := by
  obtain ⟨v, _, ⟨k, _, _, _, _, rfl⟩ | ⟨_, rfl⟩⟩ := Block.resync_cases h <;> exact ⟨rfl, rfl, rfl, rfl, rfl, rfl⟩

/-- Where `tail` is after re-sync: on an entry of the pool that holds the age after the old one, or where it was, and then no
entry of the pool holds that age. -/
theorem Block.resync_tail {b b' : Block} (hd : b.capacity.toNat ≤ Config.depth) (h : b.resync = some b') :
    b.tail.toNat < b.capacity.toNat ∧
      ((b'.tail.toNat < b.capacity.toNat ∧ b.entry b'.tail.toNat = nextAge (b.entry b.tail.toNat)) ∨
        (b'.tail = b.tail ∧ ∀ i < b.capacity.toNat, b.entry i ≠ nextAge (b.entry b.tail.toNat))) := by
  obtain ⟨v, hv, hc⟩ := Block.resync_cases h
  obtain ⟨ht, _, rfl⟩ := Block.slot?_eq_some.1 hv
  refine ⟨ht, ?_⟩
  rcases hc with ⟨k, _, hk, _, he, rfl⟩ | ⟨hm, rfl⟩
  · have : (BitVec.ofNat 8 k).toNat = k := by
      have := b.capacity.isLt
      simp only [BitVec.toNat_ofNat]
      omega
    exact .inl ⟨by simpa [this] using hk, by simpa [this] using he⟩
  · exact .inr ⟨rfl, (Block.scan_missed (by omega) hd).1 hm⟩

/-- Re-sync in a pool whose cursors are legal: `tail` goes to the first entry after it that holds the next age, or stays where no
entry holds it (`42_tail_resync.md` R116, R117, R119). -/
theorem Block.resync_of_legal (b : Block) (hd : b.capacity.toNat ≤ Config.depth) (ht : b.tail.toNat < b.capacity.toNat) :
    ∃ tail', b.resync = some { b with tail := tail' } ∧
      ((∃ d < b.capacity.toNat, tail'.toNat = idxAdd b.capacity b.tail.toNat (1 + d) ∧
            b.entry tail'.toNat = nextAge (b.entry b.tail.toNat) ∧
            ∀ d' < d, b.entry (idxAdd b.capacity b.tail.toNat (1 + d')) ≠ nextAge (b.entry b.tail.toNat)) ∨
          (tail' = b.tail ∧ ∀ i < b.capacity.toNat, b.entry i ≠ nextAge (b.entry b.tail.toNat))) := by
  rw [Block.resync, Block.slot?_of_lt ht hd]
  rcases Block.scan_cases b (nextAge (b.entry b.tail.toNat)) b.tail.toNat b.capacity.toNat 1 (by omega) hd with
    ⟨d, hdc, hf, hw, hno⟩ | ⟨hm, _⟩
  · have hf' : b.findNextAge (b.entry b.tail.toNat) = _ := hf
    have hk := cursor_toNat (idxAdd_lt b.capacity b.tail.toNat (1 + d) (by omega))
    simp only [hf']
    exact ⟨_, rfl, .inl ⟨d, hdc, hk, by rw [hk]; exact hw, hno⟩⟩
  · have hm' : b.findNextAge (b.entry b.tail.toNat) = _ := hm
    simp only [hm']
    exact ⟨b.tail, rfl, .inr ⟨rfl, (Block.scan_missed (by omega) hd).1 hm⟩⟩

/-- What `entry` reads after a store to an entry that exists. -/
theorem Block.entry_store {b : Block} (h : b.slots.wf = true) {a : Nat} (ha : a < Config.depth) (v : Byte) (i : Nat) :
    (b.store a v).entry i = if i = a then v else b.entry i :=
  Memory.read_write h ha v i

/-- The entries of the pool that `INIT c` creates: `EMPTY` below `c`, as before from `c` on (`40_initialize.md` R94). -/
theorem Block.entry_create {b : Block} (h : b.slots.wf = true) {c : Byte} (hc : c.toNat ≤ Config.depth) (i : Nat) :
    (b.create c).entry i = if i < c.toNat then Config.empty else b.entry i :=
  Memory.read_fill h _ hc i

theorem Memory.free_wf (k n : Nat) : (Memory.free k n).wf = true := by
  rw [Memory.free]
  exact Memory.fill_wf rfl _ n

/-- A hardware reset leaves a slot array in canonical form. -/
theorem Block.afterReset_wf (n : Nat) : (Block.afterReset n).slots.wf = true := by
  rw [Block.afterReset_slots]
  exact Memory.free_wf _ _

/-- A reset after a command ends in a next state only where the command did. -/
theorem resetAfter_next {o : Host.Outcome State Fault Refusal} {t : State} (h : resetAfter o = .next t) :
    ∃ u, o = .next u ∧ t = u.hardwareReset := by
  cases o with
  | next u => exact ⟨u, rfl, by cases h; rfl⟩
  | fault r => cases h
  | refused r => cases h

/-- What a step can be: nothing presented, a command, a reset, or a reset during a command. -/
theorem State.port_cases (s : State) :
    (s.inbox = [] ∧ s.port = .next s) ∨
      (∃ w rest, s.inbox = .command w :: rest ∧ s.port = exec (decode w) (s.take rest)) ∨
      (∃ rest, s.inbox = .reset :: rest ∧ s.port = .next (s.take rest).hardwareReset) ∨
      (∃ w rest, s.inbox = .resetDuring w :: rest ∧
        (s.port = resetAfter (exec (decode w) (s.take rest).drawn) ∨ s.port = .next (s.take rest).drawn.hardwareReset)) := by
  rw [State.port]
  split
  · next h => exact .inl ⟨h, rfl⟩
  · next w rest h => exact .inr (.inl ⟨w, rest, h, rfl⟩)
  · next rest h => exact .inr (.inr (.inl ⟨rest, h, rfl⟩))
  · next w rest h =>
    refine .inr (.inr (.inr ⟨w, rest, h, ?_⟩))
    rw [State.interruptedByReset]
    split
    · exact .inl rfl
    · exact .inr rfl

end Sys2Proof.Machine
end

