-- ==== Sys2Proof/Laws/Count.lean ====
section
/-! SUPPORT. Counting the entries of a pool that meet a predicate, before and after one entry is written. -/

namespace Sys2Proof.Machine

theorem Block.count_congr {b b' : Block} {p : Byte → Bool} {n : Nat} (h : ∀ i < n, b.entry i = b'.entry i) :
    b.count p n = b'.count p n := by
  induction n with
  | zero => rfl
  | succ n ih => rw [Block.count, Block.count, ih fun i hi => h i (by omega), h n (by omega)]

/-- One entry below `n` changed: what was counted for it is replaced by what is counted now. -/
theorem Block.count_update {b b' : Block} {p : Byte → Bool} {n k : Nat} (hk : k < n)
    (h : ∀ i, i ≠ k → b'.entry i = b.entry i) :
    b'.count p n + (p (b.entry k)).toNat = b.count p n + (p (b'.entry k)).toNat := by
  induction n with
  | zero => omega
  | succ n ih =>
    rw [Block.count, Block.count]
    by_cases he : k = n
    · subst he
      rw [Block.count_congr (b := b') (b' := b) fun i hi => h i (by omega)]
      omega
    · rw [h n (Ne.symm he)]
      have := ih (by omega)
      omega

/-- Every entry is empty, live or reserved. -/
theorem Block.count_total (b : Block) (n : Nat) : b.count isAge n + b.count isReserved n + b.count isEmpty n = n := by
  induction n with
  | zero => rfl
  | succ n ih =>
    have one : (isAge (b.entry n)).toNat + (isReserved (b.entry n)).toNat + (isEmpty (b.entry n)).toNat = 1 := by
      by_cases h0 : b.entry n = 0
      · rw [h0]; rfl
      · by_cases h1 : b.entry n = 255
        · rw [h1]; rfl
        · have hr : isReserved (b.entry n) = false := by simpa [isReserved, Config.reserved] using h1
          have he : isEmpty (b.entry n) = false := by simpa [isEmpty, Config.empty] using h0
          rw [isAge_of_ne h0 h1, hr, he]; rfl
    simp only [Block.count]
    omega

theorem Block.count_le (b : Block) (p : Byte → Bool) (n : Nat) : b.count p n ≤ n := by
  induction n with
  | zero => exact Nat.le_refl 0
  | succ n ih =>
    rw [Block.count]
    have := Bool.toNat_le (p (b.entry n))
    omega

/-- Nothing is counted exactly when no entry meets the predicate. -/
theorem Block.count_eq_zero {b : Block} {p : Byte → Bool} {n : Nat} :
    b.count p n = 0 ↔ ∀ i < n, p (b.entry i) = false := by
  induction n with
  | zero => simp [Block.count]
  | succ n ih =>
    rw [Block.count, Nat.add_eq_zero_iff, ih, Bool.toNat_eq_zero]
    constructor
    · rintro ⟨h, hn⟩ i hi
      rcases Nat.lt_succ_iff_lt_or_eq.1 hi with hlt | rfl
      · exact h i hlt
      · exact hn
    · intro h
      exact ⟨fun i hi => h i (by omega), h n (by omega)⟩

/-- An entry that does not meet the predicate leaves the count below `n`. -/
theorem Block.count_lt {b : Block} {p : Byte → Bool} {n k : Nat} (hk : k < n) (h : p (b.entry k) = false) :
    b.count p n < n := by
  induction n with
  | zero => omega
  | succ n ih =>
    rw [Block.count]
    by_cases he : k = n
    · subst he
      have := b.count_le p k
      rw [h, Bool.toNat_false]
      omega
    · have := ih (by omega)
      have := Bool.toNat_le (p (b.entry n))
      omega

end Sys2Proof.Machine
end

