-- ==== Sys2Proof/Laws/Decode.lean ====
section
/-! SUPPORT. The two fields of an encoded command. -/

namespace Sys2Proof

/-- A word made of two fields has them at bits 9..8 and 7..0. -/
theorem opField_append (op : BitVec 2) (arg : Byte) : opField (op ++ arg) = op := by
  apply BitVec.eq_of_toNat_eq
  rw [opField, BitVec.extractLsb'_toNat, BitVec.toNat_append, Nat.shiftRight_or_distrib, Nat.shiftLeft_shiftRight,
    Nat.shiftRight_eq_div_pow, Nat.div_eq_of_lt arg.isLt, Nat.or_zero, Nat.mod_eq_of_lt op.isLt]

theorem argField_append (op : BitVec 2) (arg : Byte) : argField (op ++ arg) = arg := by
  apply BitVec.eq_of_toNat_eq
  rw [argField, BitVec.extractLsb'_toNat, BitVec.toNat_append, Nat.shiftRight_zero, Nat.or_mod_two_pow,
    Nat.shiftLeft_eq, Nat.mul_mod_left, Nat.zero_or, Nat.mod_eq_of_lt arg.isLt]

end Sys2Proof
end

