-- ==== Sys2Proof/Laws/Exec.lean ====
section
/-! SUPPORT. What each command can do, said once: if it answers a next state, that state is one of these. And what keeps a command
from stopping. -/

namespace Sys2Proof.Machine

theorem execInit_cases {c : Byte} {s t : State} (h : execInit c s = .next t) :
    ((c.toNat < 2 ∨ 253 < c.toNat) ∧ t = s.reply s.block .badArgument Config.noIndex) ∨
      (2 ≤ c.toNat ∧ c.toNat ≤ 253 ∧ t = s.reply (s.block.create c) .ok Config.noIndex) := by
  rw [execInit] at h
  split at h
  · next hc => cases h; exact .inl ⟨hc, rfl⟩
  · next hc =>
    cases h
    have : ¬ (c.toNat < 2 ∨ 253 < c.toNat) := hc
    exact .inr ⟨by omega, by omega, rfl⟩

theorem execAlloc_cases {a : Byte} {s t : State} (h : execAlloc a s = .next t) :
    (s.block.initDone = false ∧ t = s.reply s.block .badArgument Config.noIndex) ∨
      (s.block.initDone = true ∧ ∃ k, s.block.findEmpty = .found k ∧
        t = s.reply (s.block.fillSlot s.tailReanchor k) .ok (BitVec.ofNat 8 k)) ∨
      (s.block.initDone = true ∧ s.block.findEmpty = .missed ∧ s.block.slot? s.block.tail.toNat = some Config.reserved ∧
        t = s.reply s.block .allSlotsReserved Config.noIndex) ∨
      (s.block.initDone = true ∧ s.block.findEmpty = .missed ∧ ∃ v b, s.block.slot? s.block.tail.toNat = some v ∧
        v ≠ Config.reserved ∧ s.block.resync = some b ∧ t = s.reply (b.restamp s.block.tail) .okOverwritten s.block.tail) := by
  rw [execAlloc] at h
  split at h
  · next hi => cases h; exact .inl ⟨hi, rfl⟩
  · next hi =>
    have hi : s.block.initDone = true := by simpa using hi
    split at h
    · cases h
    · next k hk => cases h; exact .inr (.inl ⟨hi, k, hk, rfl⟩)
    · next hm =>
      rw [State.overwriteTail] at h
      split at h
      · cases h
      · next v hv =>
        split at h
        · next hr => cases h; exact .inr (.inr (.inl ⟨hi, hm, by rw [hv, hr], rfl⟩))
        · next hr =>
          split at h
          · cases h
          · next b hb => cases h; exact .inr (.inr (.inr ⟨hi, hm, v, b, hv, hr, hb, rfl⟩))

theorem execReserve_cases {a : Byte} {s t : State} (h : execReserve a s = .next t) :
    (s.block.initDone = false ∧ t = s.reply s.block .badArgument Config.noIndex) ∨
      (s.block.initDone = true ∧ s.block.size = 0 ∧ t = s.reply s.block .noUsedSlots Config.noIndex) ∨
      (s.block.initDone = true ∧ s.block.size ≠ 0 ∧ s.block.slot? s.block.tail.toNat = some Config.reserved ∧
        t = s.reply s.block .allSlotsReserved Config.noIndex) ∨
      (s.block.initDone = true ∧ s.block.size ≠ 0 ∧ s.block.slot? s.block.tail.toNat = some Config.empty ∧
        t = s.reply s.block .fault Config.noIndex) ∨
      (s.block.initDone = true ∧ s.block.size ≠ 0 ∧ ∃ v b, s.block.slot? s.block.tail.toNat = some v ∧
        v ≠ Config.reserved ∧ v ≠ Config.empty ∧ s.block.resync = some b ∧
        t = s.reply (b.claim s.block.tail) .ok s.block.tail) := by
  rw [execReserve] at h
  split at h
  · next hi => cases h; exact .inl ⟨hi, rfl⟩
  · next hi =>
    have hi : s.block.initDone = true := by simpa using hi
    split at h
    · next hz => cases h; exact .inr (.inl ⟨hi, hz, rfl⟩)
    · next hz =>
      split at h
      · cases h
      · next v hv =>
        split at h
        · next hr => cases h; exact .inr (.inr (.inl ⟨hi, hz, by rw [hv, hr], rfl⟩))
        · next hr =>
          split at h
          · next he => cases h; exact .inr (.inr (.inr (.inl ⟨hi, hz, by rw [hv, he], rfl⟩)))
          · next he =>
            split at h
            · cases h
            · next b hb => cases h; exact .inr (.inr (.inr (.inr ⟨hi, hz, v, b, hv, hr, he, hb, rfl⟩)))

theorem execRelease_cases {i : Byte} {s t : State} (h : execRelease i s = .next t) :
    ((s.block.initDone = false ∨ s.block.capacity.toNat ≤ i.toNat ∨ s.block.entry i.toNat ≠ Config.reserved) ∧
        t = s.reply s.block .badArgument Config.noIndex) ∨
      (s.block.initDone = true ∧ i.toNat < s.block.capacity.toNat ∧ i.toNat < Config.depth ∧
        s.block.entry i.toNat = Config.reserved ∧ t = s.reply (s.block.store i.toNat Config.empty) .ok Config.noIndex) := by
  rw [execRelease] at h
  split at h
  · next hi => cases h; exact .inl ⟨.inl hi, rfl⟩
  · next hi =>
    have hi : s.block.initDone = true := by simpa using hi
    split at h
    · next hc => cases h; exact .inl ⟨.inr (.inl hc), rfl⟩
    · split at h
      · cases h
      · next v hv =>
        obtain ⟨h1, h2, rfl⟩ := Block.slot?_eq_some.1 hv
        split at h
        · next hr => cases h; exact .inr ⟨hi, h1, h2, hr, rfl⟩
        · next hr => cases h; exact .inl ⟨.inr (.inr hr), rfl⟩

/-- Every command answers, in every state whose cursors and capacity are legal where a pool exists. -/
theorem exec_answers (i : Instr) (s : State)
    (h : s.block.initDone = true → s.block.tail.toNat < s.block.capacity.toNat ∧ s.block.capacity.toNat ≤ Config.depth) :
    ∃ t, exec i s = .next t := by
  cases i with
  | init c => rw [exec, execInit]; split <;> exact ⟨_, rfl⟩
  | alloc a =>
    rw [exec, execAlloc]
    split
    · exact ⟨_, rfl⟩
    · next hi =>
      obtain ⟨ht, hd⟩ := h (by simpa using hi)
      obtain ⟨b, hb⟩ := Block.resync_isSome s.block ht hd
      have hn := Block.scan_ne_outOfRange s.block Config.empty s.block.head.toNat s.block.capacity.toNat 0 (by omega) hd
      split
      · next ho => exact absurd ho hn
      · exact ⟨_, rfl⟩
      · rw [State.overwriteTail, Block.slot?_of_lt ht hd, hb]
        dsimp only
        split <;> exact ⟨_, rfl⟩
  | reserve a =>
    rw [exec, execReserve]
    split
    · exact ⟨_, rfl⟩
    · next hi =>
      obtain ⟨ht, hd⟩ := h (by simpa using hi)
      obtain ⟨b, hb⟩ := Block.resync_isSome s.block ht hd
      split
      · exact ⟨_, rfl⟩
      · rw [Block.slot?_of_lt ht hd, hb]
        dsimp only
        split
        · exact ⟨_, rfl⟩
        · split <;> exact ⟨_, rfl⟩
  | release i =>
    rw [exec, execRelease]
    split
    · exact ⟨_, rfl⟩
    · next hi =>
      obtain ⟨ht, hd⟩ := h (by simpa using hi)
      split
      · exact ⟨_, rfl⟩
      · next hc =>
        rw [Block.slot?_of_lt (by omega) hd]
        dsimp only
        split <;> exact ⟨_, rfl⟩

/-- A next state of a command is a reply: the block changes, one response is given, nothing else. -/
theorem exec_reply {i : Instr} {s t : State} (h : exec i s = .next t) : ∃ b st k, t = s.reply b st k := by
  cases i with
  | init c => obtain ⟨_, rfl⟩ | ⟨_, _, rfl⟩ := execInit_cases h <;> exact ⟨_, _, _, rfl⟩
  | alloc a =>
    obtain ⟨_, rfl⟩ | ⟨_, _, _, rfl⟩ | ⟨_, _, _, rfl⟩ | ⟨_, _, _, _, _, _, _, rfl⟩ := execAlloc_cases (a := a) h <;>
      exact ⟨_, _, _, rfl⟩
  | reserve a =>
    obtain ⟨_, rfl⟩ | ⟨_, _, rfl⟩ | ⟨_, _, _, rfl⟩ | ⟨_, _, _, rfl⟩ | ⟨_, _, _, _, _, _, _, _, rfl⟩ :=
      execReserve_cases (a := a) h <;> exact ⟨_, _, _, rfl⟩
  | release i => obtain ⟨_, rfl⟩ | ⟨_, _, _, _, rfl⟩ := execRelease_cases h <;> exact ⟨_, _, _, rfl⟩

/-- A command leaves what the host will present, the instance's parameter and the count of free values. -/
theorem exec_frame {i : Instr} {s t : State} (h : exec i s = .next t) :
    t.inbox = s.inbox ∧ t.tailReanchor = s.tailReanchor ∧ t.freeUsed = s.freeUsed := by
  obtain ⟨b, st, k, rfl⟩ := exec_reply h
  exact ⟨rfl, rfl, rfl⟩

/-- A command reads the block and the instance's parameter and nothing else: at another state with the same two it does the same. -/
theorem exec_depends {i : Instr} {s t u : State} (h : exec i s = .next t) (hb : u.block = s.block)
    (hp : u.tailReanchor = s.tailReanchor) : ∃ b st k, t = s.reply b st k ∧ exec i u = .next (u.reply b st k) := by
  cases i with
  | init c =>
    obtain ⟨hc, rfl⟩ | ⟨h1, h2, rfl⟩ := execInit_cases h
    · exact ⟨_, _, _, rfl, by rw [exec, execInit, if_pos hc, State.raise_eq, hb]⟩
    · have hc : ¬ (c.toNat < Config.capMin ∨ Config.capMax < c.toNat) := by
        show ¬ (c.toNat < 2 ∨ 253 < c.toNat)
        omega
      exact ⟨_, _, _, rfl, by rw [exec, execInit, if_neg hc, State.respond_eq, hb]⟩
  | alloc a =>
    obtain ⟨hi, rfl⟩ | ⟨hi, k, hf, rfl⟩ | ⟨hi, hm, hv, rfl⟩ | ⟨hi, hm, v, b, hv, hr, hs, rfl⟩ := execAlloc_cases (a := a) h <;>
      refine ⟨_, _, _, rfl, ?_⟩
    · simp [exec, execAlloc, hb, hi, State.raise_eq]
    · simp [exec, execAlloc, hb, hp, hi, hf, State.respond_eq]
    · simp [exec, execAlloc, hb, hi, hm, hv, State.overwriteTail, State.raise_eq]
    · simp only [exec, execAlloc, hb, hi, hm, hv, State.overwriteTail, hs, State.respond_eq]
      rw [if_neg (by simp), if_neg hr]
  | reserve a =>
    obtain ⟨hi, rfl⟩ | ⟨hi, hz, rfl⟩ | ⟨hi, hz, hv, rfl⟩ | ⟨hi, hz, hv, rfl⟩ | ⟨hi, hz, v, b, hv, hr, he, hs, rfl⟩ :=
      execReserve_cases (a := a) h <;> refine ⟨_, _, _, rfl, ?_⟩
    · simp [exec, execReserve, hb, hi, State.raise_eq]
    · rw [exec, execReserve, hb, if_neg (by simp [hi]), if_pos hz, State.raise_eq, hb]
    · rw [exec, execReserve, hb, if_neg (by simp [hi]), if_neg hz, hv]
      simp [State.raise_eq, hb]
    · rw [exec, execReserve, hb, if_neg (by simp [hi]), if_neg hz, hv]
      simp [State.raise_eq, hb]
    · rw [exec, execReserve, hb, if_neg (by simp [hi]), if_neg hz, hv, hs]
      simp only [if_neg hr, if_neg he, State.respond_eq]
  | release i =>
    rw [exec, execRelease] at h
    split at h
    · next h1 => cases h; exact ⟨_, _, _, rfl, by rw [exec, execRelease, hb, if_pos h1, State.raise_eq, hb]⟩
    · next h1 =>
      split at h
      · next h2 => cases h; exact ⟨_, _, _, rfl, by rw [exec, execRelease, hb, if_neg h1, if_pos h2, State.raise_eq, hb]⟩
      · next h2 =>
        split at h
        · cases h
        · next v hv =>
          split at h <;> cases h <;> refine ⟨_, _, _, rfl, ?_⟩ <;> rw [exec, execRelease, hb, if_neg h1, if_neg h2, hv]
          · next h3 => simp only [if_pos h3, State.respond_eq]
          · next h3 => simp only [if_neg h3, State.raise_eq, hb]

/-- A response word says its status and its index. -/
theorem responseWord_inj {st st' : Status} {k k' : Byte} (h : responseWord st k = responseWord st' k') : st = st' ∧ k = k' := by
  have h1 : (responseWord st k).extractLsb' 8 3 = (responseWord st' k').extractLsb' 8 3 := by rw [h]
  have h2 : (responseWord st k).extractLsb' 0 8 = (responseWord st' k').extractLsb' 0 8 := by rw [h]
  have e1 : ∀ (c : BitVec 3) (k : Byte), (c ++ k).extractLsb' 8 3 = c := fun c k => by
    apply BitVec.eq_of_toNat_eq
    rw [BitVec.extractLsb'_toNat, BitVec.toNat_append, Nat.shiftRight_or_distrib, Nat.shiftLeft_shiftRight,
      Nat.shiftRight_eq_div_pow, Nat.div_eq_of_lt k.isLt, Nat.or_zero, Nat.mod_eq_of_lt c.isLt]
  have e2 : ∀ (c : BitVec 3) (k : Byte), (c ++ k).extractLsb' 0 8 = k := fun c k => by
    apply BitVec.eq_of_toNat_eq
    rw [BitVec.extractLsb'_toNat, BitVec.toNat_append, Nat.shiftRight_zero, Nat.or_mod_two_pow,
      Nat.shiftLeft_eq, Nat.mul_mod_left, Nat.zero_or, Nat.mod_eq_of_lt k.isLt]
  rw [responseWord, responseWord] at h1 h2
  rw [e1, e1] at h1
  rw [e2, e2] at h2
  exact ⟨by revert h1; cases st <;> cases st' <;> decide, h2⟩

/-- What a reply answered. -/
theorem reply_answers {s : State} {b : Block} {st st' : Status} {k k' : Byte}
    (h : (s.reply b st k).outbox = s.outbox ++ [responseWord st' k']) : st = st' ∧ k = k' := by
  rw [State.reply_outbox] at h
  exact responseWord_inj (by simpa using h)

end Sys2Proof.Machine
end

