-- ==== Sys2Proof/Laws/PerInstr.lean ====
section
/-! SUPPORT. What is proved command by command of a command as syntax: its word carries its two fields, and its operand fits. -/

namespace Sys2Proof.Laws.EncodedFields

/-- The word of a command has its `op` and its `arg` in their places, and the command is well formed. -/
def Statement (i : Instr) : Prop :=
  opField (encode i) = opcode i ∧ argField (encode i) = argument i ∧ i.wellFormed = true

theorem wellFormed_of (i : Instr) (v : Byte) (h : i.operand = v.toNat) : i.wellFormed = true := by
  have := v.isLt
  rw [Instr.wellFormed, h]
  exact decide_eq_true (by omega)

theorem init (c : Byte) : Statement (.init c) :=
  ⟨opField_append _ _, argField_append _ _, wellFormed_of _ c rfl⟩

theorem alloc (arg : Byte) : Statement (.alloc arg) :=
  ⟨opField_append _ _, argField_append _ _, wellFormed_of _ arg rfl⟩

theorem reserve (arg : Byte) : Statement (.reserve arg) :=
  ⟨opField_append _ _, argField_append _ _, wellFormed_of _ arg rfl⟩

theorem release (i : Byte) : Statement (.release i) :=
  ⟨opField_append _ _, argField_append _ _, wellFormed_of _ i rfl⟩

end Sys2Proof.Laws.EncodedFields
end

