-- ==== Sys2Proof/Tests/Slice0.lean ====
section
/-! SUPPORT. Tests with values from `95_test_vectors.md`, and for each obligation with hypotheses a concrete state and operands that
meet them all, at the boundary of each clause. -/

namespace Sys2Proof.Tests

open Sys2Proof.Machine

/-- Entries written as the vectors write them, from index `i` on. -/
def cells : Nat → List Byte → Memory
  | _, [] => []
  | i, v :: vs => if v = 0 then cells (i + 1) vs else (i, v) :: cells (i + 1) vs

/-- A pool, written as the vectors write it: cap / slot / size / head / tail / age. -/
def pool (capacity : Byte) (slots : List Byte) (size head tail age : Byte) : Block where
  initDone := true
  capacity := capacity
  size := size
  head := head
  tail := tail
  age := age
  slots := cells 0 slots

/-- A machine with this pool and nothing presented or answered. -/
def mach (reanchor : Bool) (b : Block) : State :=
  { State.reset with block := b, tailReanchor := reanchor }

/-- The next state of an outcome. -/
def nextOf : Host.Outcome State Fault Refusal → Option State
  | .next t => some t
  | .fault _ => none
  | .refused _ => none

theorem eq_of_nextOf {o : Host.Outcome State Fault Refusal} {t : State} (h : nextOf o = some t) : o = .next t := by
  cases o with
  | next s => cases h; rfl
  | fault r => cases h
  | refused r => cases h

/-- A command's response words and the block after it. -/
def answered (i : Instr) (s : State) : Option (List RspWord × Block) :=
  (nextOf (exec i s)).map fun t => (t.outbox, t.block)

/-- Whether a command answers with this status and index. -/
def saysSo (i : Instr) (s : State) (st : Status) (k : Byte) : Bool :=
  match nextOf (exec i s) with
  | none => false
  | some t => decide (t.outbox = s.outbox ++ [responseWord st k])

theorem answers_of {i : Instr} {s : State} {st : Status} {k : Byte} (h : saysSo i s st k = true) :
    ∃ t, Answers i s t st k := by
  rw [saysSo] at h
  split at h
  · cases h
  · next t ht => exact ⟨t, eq_of_nextOf ht, by simpa using h⟩

/-- S2 row 4: a full pool of three live slots. -/
abbrev full : Block := pool 3 [1, 2, 3] 3 0 0 4

/-- S2 row 3: two live slots and an `EMPTY` one. -/
abbrev partly : Block := pool 3 [1, 2, 0] 2 2 0 3

/-- S3 row 6: every slot `RESERVED`. -/
abbrev allReserved : Block := pool 2 [255, 255] 0 0 1 3

/-- The start of V-A11: a drained pool whose `EMPTY` slot is not the one at `tail`. -/
abbrev drained : Block := pool 2 [255, 0] 0 1 0 2

/-- The start of V-R3 and V-A12: a stale tail on a `RESERVED` slot. -/
abbrev staleReserved : Block := pool 2 [255, 2] 1 0 0 3

/-- The start of V-R4: a stale tail on an `EMPTY` slot. -/
abbrev staleEmpty : Block := pool 2 [0, 2] 1 0 0 3

/-! ### Decoding (the words bit by bit from the tables of `30_encoding.md` R70, R71, R78) and well-formedness -/

theorem test_decode_init : decode 0b0011111101 = .init 253 := by decide

theorem test_decode_alloc : decode 0b0110100101 = .alloc 0xA5 := by decide

theorem test_decode_reserve : decode 0b1011111111 = .reserve 0xFF := by decide

theorem test_decode_release : decode 0b1111111100 = .release 252 := by decide

theorem test_decode_refuses_eleven_bits :
    decodeNumber 1023 = .ok (.release 255) ∧ decodeNumber 1024 = .error .widerThanCommandWord := by
  exact ⟨rfl, rfl⟩

/-- The one check of `AsmLine.wellFormed`, for each line that has an operand: 255 passes, 256 is refused. -/
theorem test_wellFormed_refuses :
    AsmLine.wellFormed (.init 255) = true ∧ AsmLine.wellFormed (.init 256) = false ∧
      AsmLine.wellFormed (.release 255) = true ∧ AsmLine.wellFormed (.release 256) = false ∧
      assemble (.init 255) = some (.init 255) ∧ assemble (.init 256) = none ∧
      assemble (.release 0) = some (.release 0) ∧ assemble (.release 256) = none := by
  decide

theorem test_text : AsmLine.text (.release 17) = "RELEASE 17" ∧ responseText .okOverwritten 0 = "OkOverwritten(0)" ∧
    responseText .badArgument 0xFF = "BadArgument" := by
  decide

/-! ### One command each, start and end from `95_test_vectors.md` -/

/-- V-I9. -/
theorem test_init_smaller : answered (.init 2) (mach false (pool 3 [255, 2, 3] 2 0 1 4)) =
    some ([0x0FF], pool 2 [0, 0, 3] 0 0 0 1) := by
  decide

/-- V-I7. -/
theorem test_init_refused : answered (.init 1) (mach true (pool 3 [255, 2, 3] 2 0 1 4)) =
    some ([0x2FF], pool 3 [255, 2, 3] 2 0 1 4) := by
  decide

/-- V-A6. -/
theorem test_alloc_overwrites : answered (.alloc 0) (mach true (pool 3 [9, 8, 10] 3 2 1 11)) =
    some ([0x101], pool 3 [9, 11, 10] 3 1 0 12) := by
  decide

/-- V-A11, the one step on which the settings differ. -/
theorem test_alloc_settings :
    answered (.alloc 0) (mach false drained) = some ([0x001], pool 2 [255, 2] 1 0 0 3) ∧
      answered (.alloc 0) (mach true drained) = some ([0x001], pool 2 [255, 2] 1 0 1 3) := by
  decide

/-- V-S4. -/
theorem test_reserve_wraps : answered (.reserve 0) (mach false (pool 3 [1, 0, 254] 2 1 2 2)) =
    some ([0x002], pool 3 [1, 0, 255] 1 1 0 2) := by
  decide

/-- V-R4. -/
theorem test_reserve_fault : answered (.reserve 0) (mach false staleEmpty) = some ([0x5FF], staleEmpty) := by
  decide

/-- V-L1. -/
theorem test_release_one_entry : answered (.release 1) (mach true (pool 3 [255, 255, 4] 1 2 2 5)) =
    some ([0x0FF], pool 3 [255, 0, 4] 1 2 2 5) := by
  decide

/-- V-L2 and V-L4. -/
theorem test_release_refused :
    answered (.release 1) (mach true (pool 3 [255, 0, 4] 1 2 2 5)) = some ([0x2FF], pool 3 [255, 0, 4] 1 2 2 5) ∧
      answered (.release 3) (mach true (pool 3 [255, 255, 4] 1 2 2 5)) = some ([0x2FF], pool 3 [255, 255, 4] 1 2 2 5) := by
  decide

/-- P2 rows 4 and 5 with T = 0: the slot just allocated cannot be reserved. -/
theorem test_stale_tail : answered (.reserve 0) (mach false staleReserved) = some ([0x4FF], staleReserved) := by
  decide

/-! ### The hypotheses of the obligations can be met -/

theorem full_inv : full.Inv ∧ full.Window [0, 1, 2] := by decide

theorem partly_inv : partly.Inv ∧ partly.Window [0, 1] := by decide

theorem drained_inv : drained.Inv ∧ drained.Window [] := by decide

theorem allReserved_inv : allReserved.Inv ∧ allReserved.Window [] := by decide

theorem staleReserved_inv : staleReserved.Inv := by decide

theorem staleEmpty_inv : staleEmpty.Inv := by decide

theorem full_ordered : (mach true full).Ordered := fun _ _ => ⟨[0, 1, 2], full_inv.2⟩

theorem allReserved_ordered : (mach true allReserved).Ordered := fun _ _ => ⟨[], allReserved_inv.2⟩

theorem drained_ordered : (mach true drained).Ordered := fun _ _ => ⟨[], drained_inv.2⟩

/-- Operands 0, 255 and 256 of a line. -/
theorem witness_AssembledWords : (0 : Nat) ≤ 255 ∧ (255 : Nat) ≤ 255 ∧ 255 < (256 : Nat) := by decide

/-- A pool for each clause: `ALLOC` hits in `partly`, overwrites in `full`; `RESERVE` takes the tail in `full`, errs in `staleEmpty`. -/
theorem witness_OneResponseWithIndex :
    (mach true partly).block.Inv ∧ (mach false full).block.Inv ∧ (mach true staleEmpty).block.Inv :=
  ⟨partly_inv.1, full_inv.1, staleEmpty_inv⟩

theorem witness_SuccessorFunctions :
    (252 : Byte).toNat < (253 : Byte).toNat ∧ (0 : Byte).toNat < (253 : Byte).toNat ∧
      1 ≤ (1 : Byte).toNat ∧ (254 : Byte).toNat ≤ 254 ∧ 253 ≤ (253 : Byte).toNat := by
  decide

theorem witness_AgeWheelIsOneCycle : isAge 1 = true ∧ isAge 254 = true ∧ (0 : Nat) < 1 ∧ (253 : Nat) < 254 := by decide

theorem witness_StepRunsDecodedCommand :
    ({ mach true full with inbox := [.command 0x100, .reset] } : State).inbox = .command 0x100 :: [.reset] := rfl

theorem witness_PresentedWordRunsNext : (0 : Nat) < 1024 ∧ (1023 : Nat) < 1024 := by decide

theorem witness_OneEventAStep :
    step State.reset = .next State.reset ∧
      ∃ t, step { mach true full with inbox := [.command 0x200] } = .next t := by
  exact ⟨rfl, _, rfl⟩

theorem witness_ResetEventEndsThePool :
    ({ mach true full with inbox := [.reset, .command 2] } : State).inbox = .reset :: [.command 2] := rfl

theorem witness_ResetDuringCommand :
    ({ mach true full with inbox := [.resetDuring 0x100] } : State).inbox = .resetDuring 0x100 :: [] ∧
      ({ mach true full with inbox := [.resetDuring 0x100] } : State).block.Inv :=
  ⟨rfl, full_inv.1⟩

/-- Before an `INIT` two machines that differ in all a reset leaves unspecified; and with a pool two that differ in an entry of no
pool. The command is `INIT 2`, and `ALLOC`. -/
theorem witness_UnspecifiedStateIsInvisible :
    (∃ u, ({ State.reset with inbox := [.command 2] } : State).SameToHost
          { State.reset with block := { full with initDone := false }, inbox := [.command 2] } ∧
        step { State.reset with inbox := [.command 2] } = .next u) ∧
      (∃ u, ({ mach true full with inbox := [.command 0x100] } : State).SameToHost
          { mach true (pool 3 [1, 2, 3, 9] 3 0 0 4) with inbox := [.command 0x100] } ∧
        step { mach true full with inbox := [.command 0x100] } = .next u) ∧
      State.reset.block.slots.wf = true ∧ full.slots.wf = true ∧ (pool 3 [1, 2, 3, 9] 3 0 0 4).slots.wf = true := by
  refine ⟨⟨_, by unfold State.SameToHost; decide, rfl⟩, ⟨_, by unfold State.SameToHost; decide, rfl⟩, by decide⟩

theorem witness_InitCreatesEmptyPool :
    State.reset.block.slots.wf = true ∧ (mach false full).block.slots.wf = true ∧ 2 ≤ (2 : Byte).toNat ∧ (2 : Byte).toNat ≤ 253 ∧
      2 ≤ (253 : Byte).toNat ∧ (253 : Byte).toNat ≤ 253 := by
  decide

theorem witness_FailedInitChangesNothing :
    ((0 : Byte).toNat < 2 ∨ 253 < (0 : Byte).toNat) ∧ ((1 : Byte).toNat < 2 ∨ 253 < (1 : Byte).toNat) ∧
      ((254 : Byte).toNat < 2 ∨ 253 < (254 : Byte).toNat) ∧ ((255 : Byte).toNat < 2 ∨ 253 < (255 : Byte).toNat) := by
  decide

theorem witness_BadArgumentBeforeInit : State.reset.block.initDone = false := rfl

/-- A hit at the first probe (V-A1, offset 0), at the last one (V-A3, offset 2), and in a drained pool of each setting (V-A11). -/
theorem witness_AllocFillsFirstEmpty :
    (∀ b ∈ [(pool 3 [0, 0, 0] 0 0 0 1, 0), (pool 3 [0, 7, 8] 2 1 1 9, 2), (drained, 0)],
      b.1.slots.wf = true ∧ b.1.initDone = true ∧ b.1.capacity.toNat ≤ 253 ∧ b.2 < b.1.capacity.toNat ∧
        b.1.entry (idxAdd b.1.capacity b.1.head.toNat b.2) = 0 ∧
        ∀ j' < b.2, b.1.entry (idxAdd b.1.capacity b.1.head.toNat j') ≠ 0) := by
  decide

/-- V-A6, where `tail` moves, and V-A7, where no entry holds the next age. -/
theorem witness_AllocOverwritesTail :
    (∀ b ∈ [pool 3 [9, 8, 10] 3 2 1 11, pool 3 [255, 255, 3] 1 0 2 4],
      b.slots.wf = true ∧ b.initDone = true ∧ b.capacity.toNat ≤ 253 ∧ b.tail.toNat < b.capacity.toNat ∧
        (∀ i < b.capacity.toNat, b.entry i ≠ 0) ∧ b.entry b.tail.toNat ≠ 255) := by
  decide

/-- V-A8 and V-A12. -/
theorem witness_AllocRefusedAtReservedTail :
    (∀ b ∈ [allReserved, staleReserved],
      b.initDone = true ∧ b.capacity.toNat ≤ 253 ∧ b.tail.toNat < b.capacity.toNat ∧
        (∀ i < b.capacity.toNat, b.entry i ≠ 0) ∧ b.entry b.tail.toNat = 255) := by
  decide

theorem witness_OverwriteKeepsSize : ∃ t, Answers (.alloc 0) (mach true full) t .okOverwritten 0 := answers_of (by decide)

theorem witness_OverwriteLeavesHeadAtVictim : ∃ t, Answers (.alloc 7) (mach false full) t .okOverwritten 0 :=
  answers_of (by decide)

/-- V-S4, where `tail` moves across the wrap of the wheel, and V-S5, where no entry holds the next age. -/
theorem witness_ReserveTakesTail :
    (∀ b ∈ [pool 3 [1, 0, 254] 2 1 2 2, pool 3 [255, 7, 0] 1 2 1 8],
      b.slots.wf = true ∧ b.initDone = true ∧ b.capacity.toNat ≤ 253 ∧ b.tail.toNat < b.capacity.toNat ∧ b.size ≠ 0 ∧
        b.entry b.tail.toNat ≠ 0 ∧ b.entry b.tail.toNat ≠ 255) := by
  decide

/-- V-R2, V-R3 and V-R4, one for each clause. -/
theorem witness_ReserveErrorsInOrder :
    (∀ b ∈ [allReserved, staleReserved, staleEmpty],
      b.initDone = true ∧ b.capacity.toNat ≤ 253 ∧ b.tail.toNat < b.capacity.toNat) ∧
      allReserved.size = 0 ∧ (staleReserved.size ≠ 0 ∧ staleReserved.entry staleReserved.tail.toNat = 255) ∧
      staleEmpty.size ≠ 0 ∧ staleEmpty.entry staleEmpty.tail.toNat = 0 := by
  decide

/-- V-L1 and V-L6, the highest index. -/
theorem witness_ReleaseEmptiesOneEntry :
    (∀ p ∈ [(pool 3 [255, 255, 4] 1 2 2 5, (1 : Byte)), (pool 3 [1, 0, 255] 1 1 0 2, 2)],
      p.1.slots.wf = true ∧ p.1.initDone = true ∧ p.1.capacity.toNat ≤ 253 ∧ p.2.toNat < p.1.capacity.toNat ∧
        p.1.entry p.2.toNat = 255) := by
  decide

/-- V-L4 and V-L5 (out of range), V-L2 (`EMPTY`), V-L3 (live). -/
theorem witness_ReleaseRefused :
    (∀ p ∈ [(pool 3 [255, 255, 4] 1 2 2 5, (3 : Byte)), (pool 3 [255, 255, 4] 1 2 2 5, 255), (pool 3 [255, 0, 4] 1 2 2 5, 1),
        (pool 3 [255, 255, 4] 1 2 2 5, 2)],
      p.1.initDone = true ∧ p.1.capacity.toNat ≤ 253 ∧ (p.1.capacity.toNat ≤ p.2.toNat ∨ p.1.entry p.2.toNat ≠ 255)) := by
  decide

theorem witness_DoubleReleaseRefused :
    allReserved.slots.wf = true ∧ ∃ t, Answers (.release 0) (mach true allReserved) t .ok 0xFF :=
  ⟨by decide, answers_of (by decide)⟩

/-- An error, a success that changes state, and an `INIT` that does not. -/
theorem witness_ErrorsChangeNothing :
    (∃ t, Answers (.reserve 0) (mach true allReserved) t .noUsedSlots 0xFF) ∧ isError .noUsedSlots = true ∧
      ((∃ t, Answers (.reserve 0) (mach true full) t .ok 0) ∧ full.Inv) ∧
      (∃ t, Answers (.init 2) (mach true (pool 2 [0, 0] 0 0 0 1)) t .ok 0xFF ∧ t.block = pool 2 [0, 0] 0 0 0 1) ∧
      (pool 2 [0, 0] 0 0 0 1).Inv ∧ isError .ok = false := by
  refine ⟨answers_of (by decide), rfl, ⟨answers_of (by decide), full_inv.1⟩, ⟨_, ⟨rfl, rfl⟩, by decide⟩, by decide, rfl⟩

theorem witness_StatusTable :
    full.Inv ∧ staleEmpty.Inv ∧ StatusCause staleEmpty (.reserve 0) .fault ∧ StatusCause full (.init 253) .ok := by
  refine ⟨full_inv.1, staleEmpty_inv, ?_, ?_⟩ <;> unfold StatusCause <;> decide

theorem witness_CapacityFixedUntilInit :
    ∃ t, exec (.init 253) (mach true full) = .next t ∧ t.block.capacity ≠ (mach true full).block.capacity := by
  exact ⟨_, rfl, by decide⟩

theorem witness_InitDoneSetOnlyByInit :
    (∃ t, exec (.init 2) State.reset = .next t) ∧ (∃ t, exec (.init 1) State.reset = .next t) ∧
      ∃ t, exec (.alloc 0) (mach true full) = .next t := by
  exact ⟨⟨_, rfl⟩, ⟨_, rfl⟩, _, rfl⟩

theorem witness_SlotLifeCycle : full.Inv ∧ ∃ t, exec (.alloc 0) (mach true full) = .next t :=
  ⟨full_inv.1, _, rfl⟩

theorem witness_EveryStepKeepsInvariant :
    full.Inv ∧ ∃ t, step { mach true full with inbox := [.command 0x200] } = .next t :=
  ⟨full_inv.1, _, rfl⟩

theorem witness_RunsFromInitStayLegal :
    State.reset.block.slots.wf = true ∧ 2 ≤ (2 : Byte).toNat ∧ (2 : Byte).toNat ≤ 253 ∧ 2 ≤ (253 : Byte).toNat ∧
      (253 : Byte).toNat ≤ 253 := by
  decide

theorem witness_EveryStepAnswers : State.reset.block.Inv ∧ staleReserved.Inv := ⟨by decide, staleReserved_inv⟩

/-- A full pool, a pool with an `EMPTY` slot, and a drained one. -/
theorem witness_CommandsKeepWindow :
    (mach true full).tailReanchor = true ∧ full.initDone = true ∧ (full.Inv ∧ full.Window [0, 1, 2]) ∧
      (partly.Inv ∧ partly.Window [0, 1]) ∧ drained.Inv ∧ drained.Window [] :=
  ⟨rfl, rfl, full_inv, partly_inv, drained_inv⟩

theorem witness_EveryStepKeepsOrder :
    full.Inv ∧ (mach true full).Ordered ∧ ({ mach true full with inbox := [.command 0x100] } : State).Ordered ∧
      ∃ t, step { mach true full with inbox := [.command 0x100] } = .next t :=
  ⟨full_inv.1, full_ordered, full_ordered, _, rfl⟩

theorem witness_TailIsLiveAndOldest : full.Inv ∧ full.initDone = true ∧ full.Window [0, 1, 2] ∧ full.size ≠ 0 :=
  ⟨full_inv.1, rfl, full_inv.2, by decide⟩

/-- Three live slots, and one (V-S5). -/
theorem witness_ResyncFindsSecondOldest :
    (full.Inv ∧ full.initDone = true ∧ full.Window (0 :: [1, 2])) ∧
      (pool 3 [255, 7, 0] 1 2 1 8).Inv ∧ (pool 3 [255, 7, 0] 1 2 1 8).Window (1 :: []) :=
  ⟨⟨full_inv.1, rfl, full_inv.2⟩, by decide, by decide⟩

theorem witness_RunsAreFirstInFirstOut :
    (mach true full).tailReanchor = true ∧ full.initDone = true ∧ full.Inv ∧ full.Window [0, 1, 2] :=
  ⟨rfl, rfl, full_inv⟩

/-- One pool with every slot `RESERVED`, one with none. -/
theorem witness_AllocRefusedIffAllReserved :
    (mach true allReserved).tailReanchor = true ∧ allReserved.initDone = true ∧ allReserved.Inv ∧
      (mach true allReserved).Ordered ∧ full.Inv ∧ (mach true full).Ordered :=
  ⟨rfl, rfl, allReserved_inv.1, allReserved_ordered, full_inv.1, full_ordered⟩

theorem witness_ReserveOkIffLive :
    (mach true drained).tailReanchor = true ∧ drained.initDone = true ∧ drained.Inv ∧ (mach true drained).Ordered ∧
      drained.size.toNat = 0 ∧ full.Inv ∧ (mach true full).Ordered ∧ 0 < full.size.toNat :=
  ⟨rfl, rfl, drained_inv.1, drained_ordered, rfl, full_inv.1, full_ordered, by decide⟩

theorem witness_NoFaultWithReanchor :
    full.Inv ∧ ({ mach true full with inbox := [.command 0x200] } : State).Ordered ∧
      ({ mach true full with inbox := [.command 0x200] } : State).Safe ∧
      ∃ t, step { mach true full with inbox := [.command 0x200] } = .next t :=
  ⟨full_inv.1, full_ordered, rfl, _, rfl⟩

theorem witness_FaultRecordIsSticky :
    (∃ t, step { mach false full with faulted := true, inbox := [.command 0x200] } = .next t) ∧
      (∃ t, Answers (.reserve 0) (mach false staleEmpty) t .fault 0xFF) ∧
      ∃ t, Answers (.reserve 0) (mach false full) t .ok 0 :=
  ⟨⟨_, rfl⟩, answers_of (by decide), answers_of (by decide)⟩

/-- A command that is no `ALLOC`, an `ALLOC` in a pool with live slots, and one that hits at `tail` in a drained pool (V-A14). -/
theorem witness_SettingsAgree :
    (∀ a k, Instr.reserve 0 = .alloc a → full.findEmpty = .found k → full.size = 0 → k = full.tail.toNat) ∧
      (∀ a k, Instr.alloc 0 = .alloc a → full.findEmpty = .found k → full.size = 0 → k = full.tail.toNat) ∧
      ∀ a k, Instr.alloc 0 = .alloc a → (pool 2 [0, 0] 0 1 1 254).findEmpty = .found k → (pool 2 [0, 0] 0 1 1 254).size = 0 →
        k = (pool 2 [0, 0] 0 1 1 254).tail.toNat := by
  refine ⟨fun _ _ h => (by cases h), fun _ _ _ _ h => absurd h (by decide), fun _ k _ h _ => ?_⟩
  have hf : (pool 2 [0, 0] 0 1 1 254).findEmpty = .found 1 := by decide
  rw [hf] at h
  cases h
  decide

theorem witness_StaleTailArises :
    (mach false drained).tailReanchor = false ∧ (∃ t, Answers (.alloc 0) (mach false drained) t .ok 1) ∧
      ((pool 3 [255, 7, 0] 1 2 1 8).Inv ∧ (pool 3 [255, 7, 0] 1 2 1 8).size.toNat = 1) ∧
      ∃ t, Answers (.reserve 0) (mach true (pool 3 [255, 7, 0] 1 2 1 8)) t .ok 1 :=
  ⟨rfl, answers_of (by decide), by decide, answers_of (by decide)⟩

theorem witness_AllocThenReserveInDrainedPool :
    (mach true drained).tailReanchor = true ∧ drained.Inv ∧ drained.initDone = true ∧ drained.size = 0 ∧
      ∃ t, Answers (.alloc 0) (mach true drained) t .ok 1 :=
  ⟨rfl, drained_inv.1, rfl, rfl, answers_of (by decide)⟩

theorem witness_FillReturnsIndicesInOrder :
    State.reset.block.slots.wf = true ∧ (2 ≤ (2 : Byte).toNat ∧ (2 : Byte).toNat ≤ 253 ∧ 0 ≤ (2 : Byte).toNat) ∧
      2 ≤ (253 : Byte).toNat ∧ (253 : Byte).toNat ≤ 253 ∧ 253 ≤ (253 : Byte).toNat := by
  decide

theorem witness_EvictionIsOldestFirst :
    State.reset.block.slots.wf = true ∧ (2 ≤ (2 : Byte).toNat ∧ (2 : Byte).toNat ≤ 253 ∧ (1 : Nat) ≤ 1) ∧
      2 ≤ (253 : Byte).toNat ∧ (253 : Byte).toNat ≤ 253 ∧ (1 : Nat) ≤ 254 := by
  decide

/-- One for each clause: each successful command, a refused `ALLOC`, an error of a pool, an error before `INIT`. -/
theorem witness_AccessBounds :
    (∃ t, Answers (.init 2) (mach true full) t .ok 0xFF) ∧ (∃ t, Answers (.alloc 0) (mach true partly) t .ok 2) ∧
      (∃ t, Answers (.alloc 0) (mach true full) t .okOverwritten 0) ∧
      (∃ t, Answers (.alloc 0) (mach true allReserved) t .allSlotsReserved 0xFF) ∧
      (∃ t, Answers (.reserve 0) (mach true full) t .ok 0) ∧ (∃ t, Answers (.release 1) (mach true allReserved) t .ok 0xFF) ∧
      (∃ t, Answers (.release 1) (mach true full) t .badArgument 0xFF) ∧
      (∃ t, Answers (.alloc 0) State.reset t .badArgument 0xFF) ∧ full.Inv ∧ partly.Inv ∧ allReserved.Inv ∧
      State.reset.block.Inv :=
  ⟨answers_of (by decide), answers_of (by decide), answers_of (by decide), answers_of (by decide), answers_of (by decide),
    answers_of (by decide), answers_of (by decide), answers_of (by decide), full_inv.1, partly_inv.1, allReserved_inv.1,
    by decide⟩

end Sys2Proof.Tests
end

section
/-! PROOFS of the statements about `00_scope.md`: the two successor functions and `idx_add` (R12), the three predicates on a slot
byte (R13), one event a step (R15, R206). -/

namespace Sys2Proof.Machine

/-- Below a capacity, the wrap of `next_idx` by remainder is the rule's case distinction (`00_scope.md` R12). -/
theorem nextIdx_toNat_eq_ite {c i : Byte} (h : i.toNat < c.toNat) :
    (nextIdx c i).toNat = if i.toNat + 1 = c.toNat then 0 else i.toNat + 1 := by
  rw [nextIdx_toNat c i h]
  split
  · next hwrap => rw [hwrap, Nat.mod_self]
  · next hne => exact Nat.mod_eq_of_lt (by omega)

theorem idxAdd_zero {c : Byte} {i : Nat} (h : i < c.toNat) : idxAdd c i 0 = i :=
  Nat.mod_eq_of_lt h

theorem idxAdd_succ (c : Byte) (i j : Nat) : idxAdd c i (j + 1) = (idxAdd c i j + 1) % c.toNat := by
  rw [idxAdd, idxAdd, Nat.mod_add_mod, Nat.add_assoc]

/-- `idx_add` iterates `next_idx`, for every number of steps (`00_scope.md` R12). -/
theorem iterate_nextIdx_toNat {c i : Byte} (h : i.toNat < c.toNat) (j : Nat) :
    ((nextIdx c)^[j] i).toNat = idxAdd c i.toNat j := by
  induction j with
  | zero => exact (idxAdd_zero h).symm
  | succ j ih =>
    have hlt : ((nextIdx c)^[j] i).toNat < c.toNat := ih ▸ idxAdd_lt c i.toNat j (by omega)
    rw [Function.iterate_succ_apply', nextIdx_toNat c _ hlt, ih, idxAdd_succ]

/-- An age is neither sentinel; the converse is `isAge_of_ne`. -/
theorem ne_sentinels_of_isAge {v : Byte} (h : isAge v = true) : v ≠ 0 ∧ v ≠ 255 := by
  constructor <;> rintro rfl <;> exact absurd h (by decide)

theorem isAge_nextAge {a : Byte} (h : isAge a = true) : isAge (nextAge a) = true := by
  obtain ⟨hmin, hmax⟩ := (isAge_iff a).1 h
  exact (isAge_iff _).2 (nextAge_range a hmin hmax)

/-- Settles O7, by induction on the number of steps for `idx_add` and by the range of `next_age` for the sentinels. -/
theorem successorFunctions : Obligations.SuccessorFunctions := by
  refine ⟨fun c i h => ⟨nextIdx_toNat_eq_ite h, nextIdx_lt h⟩, fun a hmin hmax => ?_, fun c i j h _ => ?_⟩
  · have hage : isAge (nextAge a) = true := isAge_nextAge ((isAge_iff a).2 ⟨hmin, hmax⟩)
    exact ⟨nextAge_toNat a hmin hmax, hage, ne_sentinels_of_isAge hage⟩
  · exact ⟨rfl, (iterate_nextIdx_toNat h j).symm⟩

/-- Settles O9, by the two sentinels and every other byte, which is an age. -/
theorem slotPredicatesExclusive : Obligations.SlotPredicatesExclusive := by
  intro v
  by_cases hempty : v = 0
  · subst hempty
    exact .inl ⟨rfl, rfl, rfl, rfl⟩
  by_cases hreserved : v = 255
  · subst hreserved
    exact .inr (.inr ⟨rfl, rfl, rfl, rfl⟩)
  · have hage : isAge v = true := isAge_of_ne hempty hreserved
    exact .inr (.inl ⟨Bool.eq_false_iff.2 (mt (isEmpty_iff v).1 hempty), hage,
      Bool.eq_false_iff.2 (mt (isReserved_iff v).1 hreserved), (isAge_iff v).1 hage⟩)

/-- With nothing presented the block is quiescent (`70_reset_and_hazards.md` R206). -/
theorem step_of_inbox_nil {s : State} (h : s.inbox = []) : step s = .next s := by
  rw [step, State.port, h]

/-- A step takes the first event, if there is one, and never writes the instance's parameter (`00_scope.md` R9, R15). -/
theorem step_frame {s t : State} (h : step s = .next t) :
    t.inbox = s.inbox.tail ∧ t.tailReanchor = s.tailReanchor := by
  rw [step] at h
  rcases s.port_cases with ⟨hin, hport⟩ | ⟨w, rest, hin, hport⟩ | ⟨rest, hin, hport⟩ | ⟨w, rest, hin, hport | hport⟩ <;>
    rw [hport] at h <;> rw [hin]
  · cases h; exact ⟨hin, rfl⟩
  · obtain ⟨hinbox, hparam, _⟩ := exec_frame h
    exact ⟨hinbox, hparam⟩
  · cases h; exact ⟨rfl, rfl⟩
  · obtain ⟨u, hu, rfl⟩ := resetAfter_next h
    obtain ⟨hinbox, hparam, _⟩ := exec_frame hu
    exact ⟨hinbox, hparam⟩
  · cases h; exact ⟨rfl, rfl⟩

/-- Settles O12, by the kinds of event a step can take. -/
theorem oneEventAStep : Obligations.OneEventAStep := by
  intro s t h
  obtain ⟨hinbox, hparam⟩ := step_frame h
  refine ⟨hinbox, hparam, fun hnil => ?_⟩
  have hquiet := (step_of_inbox_nil hnil).symm.trans h
  cases hquiet
  rfl

end Sys2Proof.Machine
end

section
/-! PROOFS of the statements about `10_state.md`: the legal values and the counts (R34), `init_done` (R28), the life cycle of a
slot (R37), and what the host cannot tell apart (R36, R38). First what the commands answer in each case, then what each effect on the
block reads as and keeps. -/

namespace Sys2Proof.Machine

/-! ### What a command answers, case by case: the converse of `execInit_cases` to `execRelease_cases` -/

theorem exec_init_refused {c : Byte} {s : State} (h : c.toNat < 2 ∨ 253 < c.toNat) :
    exec (.init c) s = .next (s.reply s.block .badArgument Config.noIndex) := by
  rw [exec, execInit, if_pos h, State.raise_eq]

theorem exec_init_ok {c : Byte} {s : State} (hmin : 2 ≤ c.toNat) (hmax : c.toNat ≤ 253) :
    exec (.init c) s = .next (s.reply (s.block.create c) .ok Config.noIndex) := by
  have hlegal : ¬ (c.toNat < 2 ∨ 253 < c.toNat) := by omega
  rw [exec, execInit, if_neg hlegal, State.respond_eq]

theorem exec_alloc_noPool {a : Byte} {s : State} (h : s.block.initDone = false) :
    exec (.alloc a) s = .next (s.reply s.block .badArgument Config.noIndex) := by
  rw [exec, execAlloc, if_pos h, State.raise_eq]

theorem exec_alloc_hit {a : Byte} {s : State} {k : Nat} (hi : s.block.initDone = true) (hk : s.block.findEmpty = .found k) :
    exec (.alloc a) s = .next (s.reply (s.block.fillSlot s.tailReanchor k) .ok (BitVec.ofNat 8 k)) := by
  rw [exec, execAlloc, if_neg (by simp [hi]), hk]
  rfl

theorem exec_alloc_refused {a : Byte} {s : State} (hi : s.block.initDone = true) (hm : s.block.findEmpty = .missed)
    (hv : s.block.slot? s.block.tail.toNat = some Config.reserved) :
    exec (.alloc a) s = .next (s.reply s.block .allSlotsReserved Config.noIndex) := by
  simp only [exec, execAlloc, hm, State.overwriteTail, hv, if_pos, State.raise_eq]
  rw [if_neg (by simp [hi])]

theorem exec_alloc_overwrite {a : Byte} {s : State} {v : Byte} {b : Block} (hi : s.block.initDone = true)
    (hm : s.block.findEmpty = .missed) (hv : s.block.slot? s.block.tail.toNat = some v) (hr : v ≠ Config.reserved)
    (hb : s.block.resync = some b) :
    exec (.alloc a) s = .next (s.reply (b.restamp s.block.tail) .okOverwritten s.block.tail) := by
  simp only [exec, execAlloc, hm, State.overwriteTail, hv, hb, State.respond_eq]
  rw [if_neg (by simp [hi]), if_neg hr]

theorem exec_reserve_noPool {a : Byte} {s : State} (h : s.block.initDone = false) :
    exec (.reserve a) s = .next (s.reply s.block .badArgument Config.noIndex) := by
  rw [exec, execReserve, if_pos h, State.raise_eq]

theorem exec_reserve_drained {a : Byte} {s : State} (hi : s.block.initDone = true) (hz : s.block.size = 0) :
    exec (.reserve a) s = .next (s.reply s.block .noUsedSlots Config.noIndex) := by
  rw [exec, execReserve, if_neg (by simp [hi]), if_pos hz, State.raise_eq]

theorem exec_reserve_refused {a : Byte} {s : State} (hi : s.block.initDone = true) (hz : s.block.size ≠ 0)
    (hv : s.block.slot? s.block.tail.toNat = some Config.reserved) :
    exec (.reserve a) s = .next (s.reply s.block .allSlotsReserved Config.noIndex) := by
  rw [exec, execReserve, if_neg (by simp [hi]), if_neg hz, hv]
  rfl

theorem exec_reserve_fault {a : Byte} {s : State} (hi : s.block.initDone = true) (hz : s.block.size ≠ 0)
    (hv : s.block.slot? s.block.tail.toNat = some Config.empty) :
    exec (.reserve a) s = .next (s.reply s.block .fault Config.noIndex) := by
  rw [exec, execReserve, if_neg (by simp [hi]), if_neg hz, hv]
  rfl

theorem exec_reserve_ok {a : Byte} {s : State} {v : Byte} {b : Block} (hi : s.block.initDone = true) (hz : s.block.size ≠ 0)
    (hv : s.block.slot? s.block.tail.toNat = some v) (hr : v ≠ Config.reserved) (he : v ≠ Config.empty)
    (hb : s.block.resync = some b) :
    exec (.reserve a) s = .next (s.reply (b.claim s.block.tail) .ok s.block.tail) := by
  simp only [exec, execReserve, hv, hb, State.respond_eq]
  rw [if_neg (by simp [hi]), if_neg hz, if_neg hr, if_neg he]

theorem exec_release_noPool {i : Byte} {s : State} (h : s.block.initDone = false) :
    exec (.release i) s = .next (s.reply s.block .badArgument Config.noIndex) := by
  rw [exec, execRelease, if_pos h, State.raise_eq]

theorem exec_release_beyond {i : Byte} {s : State} (h : s.block.capacity.toNat ≤ i.toNat) :
    exec (.release i) s = .next (s.reply s.block .badArgument Config.noIndex) := by
  rw [exec, execRelease, if_pos h, ite_self, State.raise_eq]

theorem exec_release_notReserved {i v : Byte} {s : State} (hi : s.block.initDone = true)
    (hv : s.block.slot? i.toNat = some v) (hr : v ≠ Config.reserved) :
    exec (.release i) s = .next (s.reply s.block .badArgument Config.noIndex) := by
  obtain ⟨hc, _, _⟩ := Block.slot?_eq_some.1 hv
  simp only [exec, execRelease, hv, State.raise_eq]
  rw [if_neg (by simp [hi]), if_neg (by omega), if_neg hr]

theorem exec_release_ok {i : Byte} {s : State} (hi : s.block.initDone = true)
    (hv : s.block.slot? i.toNat = some Config.reserved) :
    exec (.release i) s = .next (s.reply (s.block.store i.toNat Config.empty) .ok Config.noIndex) := by
  obtain ⟨hc, _, _⟩ := Block.slot?_eq_some.1 hv
  simp only [exec, execRelease, hv, if_pos, State.respond_eq]
  rw [if_neg (by simp [hi]), if_neg (by omega)]

/-- A `RELEASE` that answers has read the entry it names, where that is below `capacity` (log entry 9). -/
theorem exec_release_reads {i : Byte} {s t : State} (h : exec (.release i) s = .next t) (hi : s.block.initDone = true)
    (hc : i.toNat < s.block.capacity.toNat) : ∃ v, s.block.slot? i.toNat = some v := by
  cases hv : s.block.slot? i.toNat with
  | some v => exact ⟨v, rfl⟩
  | none =>
    simp only [exec, execRelease, hv] at h
    rw [if_neg (by simp [hi]), if_neg (by omega)] at h
    cases h

/-- A response other than `Fault` that leaves the block alone changes nothing but the responses given. -/
theorem State.reply_same_block (s : State) {st : Status} (h : st ≠ .fault) (k : Byte) :
    s.reply s.block st k = { s with outbox := s.outbox ++ [responseWord st k] } := by
  simp [State.reply, h]

/-- Settles O19, by the first check of each of the three commands. -/
theorem badArgumentBeforeInit : Obligations.BadArgumentBeforeInit := by
  intro a s h
  rw [exec_alloc_noPool h, exec_reserve_noPool h, exec_release_noPool h, State.reply_same_block s (by decide)]
  exact ⟨rfl, rfl, rfl⟩

/-- Settles O37, by evaluating the reset state, where no pool exists. -/
theorem resetMeetsInvariant : Obligations.ResetMeetsInvariant :=
  ⟨⟨rfl, fun hpool => absurd hpool (by decide)⟩, fun _ hpool => absurd hpool (by decide), rfl, rfl⟩

/-! ### What a command can do to the block -/

/-- What command `i` can make of block `b`, with `ta` for `TAIL_REANCHOR`: nothing, or the one effect of its own row of the life
cycle table (`10_state.md` R37), under what that effect needs. -/
inductive Effect (i : Instr) (ta : Bool) (b b' : Block) : Prop
  /-- An error, so no successful `INIT`. -/
  | unchanged (hi : ∀ c, i = .init c → c.toNat < 2 ∨ 253 < c.toNat) (h : b' = b)
  /-- `INIT c` (`40_initialize.md` R90). -/
  | create (c : Byte) (hi : i = .init c) (hmin : 2 ≤ c.toNat) (hmax : c.toNat ≤ 253) (h : b' = b.create c)
  /-- `ALLOC`, hit path (`41_allocate_head.md` R102). -/
  | fill (a : Byte) (k : Nat) (hi : i = .alloc a) (hpool : b.initDone = true) (hk : k < b.capacity.toNat) (hd : k < Config.depth)
      (he : b.entry k = Config.empty) (h : b' = b.fillSlot ta k)
  /-- `ALLOC`, overwrite path (`41_allocate_head.md` R105), after re-sync to `r`. -/
  | overwrite (a : Byte) (r : Block) (hi : i = .alloc a) (hpool : b.initDone = true) (hm : b.findEmpty = .missed)
      (ht : b.tail.toNat < b.capacity.toNat) (hd : b.tail.toNat < Config.depth) (hr : b.entry b.tail.toNat ≠ Config.reserved)
      (hs : b.resync = some r) (h : b' = r.restamp b.tail)
  /-- `RESERVE` (`43_reserve_tail.md` R128), after re-sync to `r`. -/
  | claim (a : Byte) (r : Block) (hi : i = .reserve a) (hpool : b.initDone = true) (ht : b.tail.toNat < b.capacity.toNat)
      (hd : b.tail.toNat < Config.depth) (hr : b.entry b.tail.toNat ≠ Config.reserved)
      (he : b.entry b.tail.toNat ≠ Config.empty) (hs : b.resync = some r) (h : b' = r.claim b.tail)
  /-- `RELEASE k` (`44_release_reserved.md` R137). -/
  | free (k : Byte) (hi : i = .release k) (hpool : b.initDone = true) (hk : k.toNat < b.capacity.toNat)
      (hd : k.toNat < Config.depth) (hr : b.entry k.toNat = Config.reserved) (h : b' = b.store k.toNat Config.empty)

/-- A command that answers does one of its effects. -/
theorem exec_effect {i : Instr} {s t : State} (h : exec i s = .next t) : Effect i s.tailReanchor s.block t.block := by
  cases i with
  | init c =>
    obtain ⟨hc, rfl⟩ | ⟨hmin, hmax, rfl⟩ := execInit_cases h
    · exact .unchanged (by rintro _ ⟨⟩; exact hc) rfl
    · exact .create c rfl hmin hmax rfl
  | alloc a =>
    obtain ⟨_, rfl⟩ | ⟨hi, k, hf, rfl⟩ | ⟨_, _, _, rfl⟩ | ⟨hi, hm, v, r, hv, hr, hs, rfl⟩ := execAlloc_cases (a := a) h
    · exact .unchanged nofun rfl
    · obtain ⟨hk, hd, he⟩ := Block.scan_found hf
      exact .fill a k rfl hi hk hd he rfl
    · exact .unchanged nofun rfl
    · obtain ⟨ht, hd, rfl⟩ := Block.slot?_eq_some.1 hv
      exact .overwrite a r rfl hi hm ht hd hr hs rfl
  | reserve a =>
    obtain ⟨_, rfl⟩ | ⟨_, _, rfl⟩ | ⟨_, _, _, rfl⟩ | ⟨_, _, _, rfl⟩ | ⟨hi, _, v, r, hv, hr, he, hs, rfl⟩ :=
      execReserve_cases (a := a) h
    · exact .unchanged nofun rfl
    · exact .unchanged nofun rfl
    · exact .unchanged nofun rfl
    · exact .unchanged nofun rfl
    · obtain ⟨ht, hd, rfl⟩ := Block.slot?_eq_some.1 hv
      exact .claim a r rfl hi ht hd hr he hs rfl
  | release k =>
    obtain ⟨_, rfl⟩ | ⟨hi, hk, hd, hr, rfl⟩ := execRelease_cases h
    · exact .unchanged nofun rfl
    · exact .free k rfl hi hk hd hr rfl

theorem Block.resync_initDone {b r : Block} (h : b.resync = some r) : r.initDone = b.initDone := by
  obtain ⟨hinit, _⟩ := Block.resync_frame h
  exact hinit

/-- Settles O33, by the effects of the commands: `create` alone writes `init_done`. -/
theorem initDoneSetOnlyByInit : Obligations.InitDoneSetOnlyByInit := by
  intro i s t h
  cases exec_effect h with
  | unchanged hi h =>
    rw [h]
    refine ⟨.inl, ?_⟩
    rintro (hpool | ⟨c, rfl, hmin, hmax⟩)
    · exact hpool
    · have := hi c rfl
      omega
  | create c hi hmin hmax h => simp [h, hi, hmin, hmax]
  | fill a k hi hpool _ _ _ h => simp [h, hpool]
  | overwrite a r hi hpool _ _ _ _ hs h => simp [h, Block.resync_initDone hs, hpool]
  | claim a r hi hpool _ _ _ _ hs h => simp [h, Block.resync_initDone hs, hpool]
  | free k hi hpool _ _ _ h => simp [h, hpool]

/-! ### What an entry reads as after each effect -/

/-- Re-sync writes no entry. -/
theorem Block.entry_resync {b r : Block} (h : b.resync = some r) (i : Nat) : r.entry i = b.entry i := by
  obtain ⟨_, _, _, _, _, hslots⟩ := Block.resync_frame h
  rw [Block.entry, Block.entry, hslots]

theorem Block.entry_fillSlot {b : Block} (h : b.slots.wf = true) (ta : Bool) {k : Nat} (hk : k < Config.depth) (i : Nat) :
    (b.fillSlot ta k).entry i = if i = k then b.age else b.entry i :=
  Memory.read_write h hk b.age i

theorem Block.entry_restamp {b : Block} (h : b.slots.wf = true) {t : Byte} (ht : t.toNat < Config.depth) (i : Nat) :
    (b.restamp t).entry i = if i = t.toNat then b.age else b.entry i :=
  Memory.read_write h ht b.age i

theorem Block.entry_claim {b : Block} (h : b.slots.wf = true) {t : Byte} (ht : t.toNat < Config.depth) (i : Nat) :
    (b.claim t).entry i = if i = t.toNat then Config.reserved else b.entry i :=
  Memory.read_write h ht Config.reserved i

/-! ### The canonical form -/

theorem Block.resync_wf {b r : Block} (h : b.slots.wf = true) (hs : b.resync = some r) : r.slots.wf = true := by
  obtain ⟨_, _, _, _, _, hslots⟩ := Block.resync_frame hs
  rw [hslots]
  exact h

/-- Every effect keeps the slot array in its canonical form. -/
theorem Effect.wf {i : Instr} {ta : Bool} {b b' : Block} (he : Effect i ta b b') (hb : b.slots.wf = true) :
    b'.slots.wf = true := by
  cases he with
  | unchanged _ h => exact h ▸ hb
  | create c _ _ _ h => exact h ▸ Memory.fill_wf hb _ _
  | fill a k _ _ _ _ _ h => exact h ▸ Memory.write_wf hb _ _
  | overwrite a r _ _ _ _ _ _ hs h => exact h ▸ Memory.write_wf (Block.resync_wf hb hs) _ _
  | claim a r _ _ _ _ _ _ hs h => exact h ▸ Memory.write_wf (Block.resync_wf hb hs) _ _
  | free k _ _ _ _ _ h => exact h ▸ Memory.write_wf hb _ _

/-- What every effect of a command keeps and a hardware reset establishes, every step keeps. -/
theorem step_keeps {P : Block → Prop} (heffect : ∀ {i ta b b'}, Effect i ta b b' → P b → P b')
    (hreset : ∀ n, P (Block.afterReset n)) {s t : State} (hs : P s.block) (h : step s = .next t) : P t.block := by
  rw [step] at h
  rcases s.port_cases with ⟨_, hport⟩ | ⟨w, rest, _, hport⟩ | ⟨rest, _, hport⟩ | ⟨w, rest, _, hport | hport⟩ <;>
    rw [hport] at h
  · cases h; exact hs
  · exact heffect (exec_effect h) hs
  · cases h; exact hreset _
  · obtain ⟨u, _, rfl⟩ := resetAfter_next h
    exact hreset _
  · cases h; exact hreset _

theorem step_keeps_wf {s t : State} (hs : s.block.slots.wf = true) (h : step s = .next t) : t.block.slots.wf = true :=
  step_keeps (P := fun b => b.slots.wf = true) Effect.wf Block.afterReset_wf hs h

/-! ### The invariant of both settings (`10_state.md` R34) -/

/-- The three counts always add up to `capacity`, so legal registers and a `size` that counts the live slots are enough. -/
theorem Block.inv_of_liveCount {b : Block} (hwf : b.slots.wf = true) (hrange : b.InRange) (hlive : b.size.toNat = b.liveCount) :
    b.Inv :=
  ⟨hwf, fun _ => ⟨hrange, hlive, hlive ▸ b.count_total b.capacity.toNat⟩⟩

/-- One entry of the pool replaced: the live slots change by that entry alone. -/
theorem Block.liveCount_replace {b b' : Block} {k : Nat} {v : Byte} (hcap : b'.capacity = b.capacity)
    (hk : k < b.capacity.toNat) (h : ∀ i, b'.entry i = if i = k then v else b.entry i) :
    b'.liveCount + (isAge (b.entry k)).toNat = b.liveCount + (isAge v).toNat := by
  have hupdate := Block.count_update (p := isAge) hk fun i hi => (h i).trans (if_neg hi)
  rw [h k, if_pos rfl] at hupdate
  rw [Block.liveCount, hcap]
  exact hupdate

theorem Block.create_inv {b : Block} (h : b.slots.wf = true) {c : Byte} (hmin : 2 ≤ c.toNat) (hmax : c.toNat ≤ 253) :
    (b.create c).Inv := by
  have hlive : (b.create c).liveCount = 0 := Block.count_eq_zero.2 fun i hi => by
    rw [Block.entry_create h hmax, if_pos (show i < c.toNat from hi)]
    rfl
  have hpos : 0 < c.toNat := by omega
  exact Block.inv_of_liveCount (Memory.fill_wf h _ _)
    ⟨hmin, hmax, Nat.zero_le _, hpos, hpos, Nat.le_refl 1, show 1 ≤ 254 by decide⟩ hlive.symm

theorem Block.fillSlot_inv {b : Block} (h : b.Inv) (hpool : b.initDone = true) (ta : Bool) {k : Nat}
    (hk : k < b.capacity.toNat) (he : b.entry k = Config.empty) : (b.fillSlot ta k).Inv := by
  obtain ⟨hwf, hinv⟩ := h
  obtain ⟨⟨hmin, hmax, _, hhead, htail, hage⟩, hlive, _⟩ := hinv hpool
  have hfit := cursor_toNat hk
  have hroom : b.liveCount < b.capacity.toNat := Block.count_lt hk (by rw [he]; rfl)
  have hsize : (b.size + 1).toNat = b.size.toNat + 1 := succ_toNat _ (by omega)
  have hcount := Block.liveCount_replace (b := b) (b' := b.fillSlot ta k) rfl hk
    (Block.entry_fillSlot hwf ta (Nat.lt_of_lt_of_le hk hmax))
  rw [he, (isAge_iff b.age).2 hage] at hcount
  refine Block.inv_of_liveCount (Memory.write_wf hwf _ _) ⟨hmin, hmax, ?_, nextIdx_lt (hfit.symm ▸ hk), ?_, ?_⟩ ?_
  · exact hsize.trans_le (show b.size.toNat + 1 ≤ b.capacity.toNat by omega)
  · rw [Block.fillSlot_tail]
    split
    · exact hfit.symm ▸ hk
    · exact htail
  · exact nextAge_range b.age hage.1 hage.2
  · exact hsize.trans (hlive ▸ hcount.symm)

/-- Re-sync keeps the invariant: it moves `tail` alone, and inside the pool. -/
theorem Block.resync_inv {b r : Block} (h : b.Inv) (hpool : b.initDone = true) (hs : b.resync = some r) : r.Inv := by
  obtain ⟨hwf, hinv⟩ := h
  obtain ⟨⟨hmin, hmax, hsize, hhead, htail, hage⟩, hlive, _⟩ := hinv hpool
  obtain ⟨tail', hs', hmove⟩ := Block.resync_of_legal b hmax htail
  obtain rfl : { b with tail := tail' } = r := Option.some.inj (hs'.symm.trans hs)
  have htail' : tail'.toNat < b.capacity.toNat := by
    obtain ⟨d, _, hd, _⟩ | ⟨rfl, _⟩ := hmove
    · rw [hd]
      exact idxAdd_lt _ _ _ (by omega)
    · exact htail
  exact Block.inv_of_liveCount hwf ⟨hmin, hmax, hsize, hhead, htail', hage⟩ (hlive.trans (Block.count_congr fun _ _ => rfl))

theorem Block.restamp_inv {b : Block} (h : b.Inv) (hpool : b.initDone = true) {t : Byte} (ht : t.toNat < b.capacity.toNat)
    (ha : isAge (b.entry t.toNat) = true) : (b.restamp t).Inv := by
  obtain ⟨hwf, hinv⟩ := h
  obtain ⟨⟨hmin, hmax, hsize, _, htail, hage⟩, hlive, _⟩ := hinv hpool
  have hcount := Block.liveCount_replace (b := b) (b' := b.restamp t) rfl ht
    (Block.entry_restamp hwf (Nat.lt_of_lt_of_le ht hmax))
  rw [ha, (isAge_iff b.age).2 hage] at hcount
  exact Block.inv_of_liveCount (Memory.write_wf hwf _ _) ⟨hmin, hmax, hsize, ht, htail, nextAge_range b.age hage.1 hage.2⟩
    (hlive.trans (Nat.add_right_cancel hcount).symm)

theorem Block.claim_inv {b : Block} (h : b.Inv) (hpool : b.initDone = true) {t : Byte} (ht : t.toNat < b.capacity.toNat)
    (ha : isAge (b.entry t.toNat) = true) : (b.claim t).Inv := by
  obtain ⟨hwf, hinv⟩ := h
  obtain ⟨⟨hmin, hmax, hsize, hhead, htail, hage⟩, hlive, _⟩ := hinv hpool
  have hcount := Block.liveCount_replace (b := b) (b' := b.claim t) rfl ht (Block.entry_claim hwf (Nat.lt_of_lt_of_le ht hmax))
  rw [ha, show isAge Config.reserved = false from rfl, Bool.toNat_true, Bool.toNat_false] at hcount
  have hpred : (b.size - 1).toNat = b.size.toNat - 1 := by bv_omega
  refine Block.inv_of_liveCount (Memory.write_wf hwf _ _) ⟨hmin, hmax, ?_, hhead, htail, hage⟩ ?_
  · exact hpred.trans_le (show b.size.toNat - 1 ≤ b.capacity.toNat by omega)
  · exact hpred.trans (by omega)

theorem Block.free_inv {b : Block} (h : b.Inv) (hpool : b.initDone = true) {k : Nat} (hk : k < b.capacity.toNat)
    (hr : b.entry k = Config.reserved) : (b.store k Config.empty).Inv := by
  obtain ⟨hwf, hinv⟩ := h
  obtain ⟨⟨hmin, hmax, hcursors⟩, hlive, _⟩ := hinv hpool
  have hcount := Block.liveCount_replace (b := b) (b' := b.store k Config.empty) rfl hk
    (Block.entry_store hwf (Nat.lt_of_lt_of_le hk hmax) Config.empty)
  rw [hr] at hcount
  exact Block.inv_of_liveCount (Memory.write_wf hwf _ _) ⟨hmin, hmax, hcursors⟩ (hlive.trans hcount.symm)

/-- Where the `EMPTY` scan misses in a legal pool, an entry that is not `RESERVED` is live. -/
theorem Block.isAge_of_findEmpty_missed {b : Block} (hd : b.capacity.toNat ≤ Config.depth) (hm : b.findEmpty = .missed)
    {i : Nat} (hi : i < b.capacity.toNat) (hr : b.entry i ≠ Config.reserved) : isAge (b.entry i) = true :=
  isAge_of_ne ((Block.scan_missed (by omega) hd).1 hm i hi) hr

/-- Every effect keeps the invariant. -/
theorem Effect.inv {i : Instr} {ta : Bool} {b b' : Block} (he : Effect i ta b b') (hb : b.Inv) : b'.Inv := by
  have ⟨hwf, hinv⟩ := hb
  cases he with
  | unchanged _ h => exact h ▸ hb
  | create c _ hmin hmax h => exact h ▸ Block.create_inv hwf hmin hmax
  | fill a k _ hpool hk _ he h => exact h ▸ Block.fillSlot_inv hb hpool ta hk he
  | overwrite a r _ hpool hm ht _ hr hs h =>
    obtain ⟨_, hcap, _⟩ := Block.resync_frame hs
    obtain ⟨⟨_, hmax, _⟩, _⟩ := hinv hpool
    have hlive := Block.isAge_of_findEmpty_missed hmax hm ht hr
    exact h ▸ Block.restamp_inv (Block.resync_inv hb hpool hs) ((Block.resync_initDone hs).trans hpool) (hcap ▸ ht)
      (Block.entry_resync hs _ ▸ hlive)
  | claim a r _ hpool ht _ hr he hs h =>
    obtain ⟨_, hcap, _⟩ := Block.resync_frame hs
    exact h ▸ Block.claim_inv (Block.resync_inv hb hpool hs) ((Block.resync_initDone hs).trans hpool) (hcap ▸ ht)
      (Block.entry_resync hs _ ▸ isAge_of_ne he hr)
  | free k _ hpool hk _ hr h => exact h ▸ Block.free_inv hb hpool hk hr

theorem Block.afterReset_inv (n : Nat) : (Block.afterReset n).Inv :=
  ⟨Block.afterReset_wf n, fun hpool => Bool.noConfusion hpool⟩

/-- Settles O35: every effect of a command keeps the invariant, and a reset leaves no pool. -/
theorem everyStepKeepsInvariant : Obligations.EveryStepKeepsInvariant :=
  fun _ _ hs h => step_keeps (P := Block.Inv) Effect.inv Block.afterReset_inv hs h

/-! ### Runs of commands -/

/-- In a state of the invariant every command answers, in a state of the invariant. -/
theorem exec_completes (i : Instr) {s : State} (hs : s.block.Inv) : ∃ t, exec i s = .next t ∧ t.block.Inv := by
  obtain ⟨t, ht⟩ := exec_answers i s fun hpool =>
    have ⟨⟨_, hmax, _, _, htail, _⟩, _⟩ := hs.2 hpool
    ⟨htail, hmax⟩
  exact ⟨t, ht, (exec_effect ht).inv hs⟩

/-- From a pool of the invariant every run of commands completes in one. -/
theorem execAll_completes (is : List Instr) {s : State} (hs : s.block.Inv) (hpool : s.block.initDone = true) :
    ∃ t, execAll is s = .next t ∧ t.block.Inv ∧ t.block.initDone = true := by
  induction is generalizing s with
  | nil => exact ⟨s, rfl, hs, hpool⟩
  | cons i is ih =>
    obtain ⟨u, hu, hinv⟩ := exec_completes i hs
    rw [execAll, hu]
    exact ih hinv ((initDoneSetOnlyByInit i s u hu).2 (.inl hpool))

/-- Settles O36, by induction over the commands after the `INIT`, which creates a pool of the invariant. -/
theorem runsFromInitStayLegal : Obligations.RunsFromInitStayLegal := by
  intro is c s hwf hmin hmax
  rw [execAll, exec_init_ok hmin hmax]
  obtain ⟨t, ht, ⟨_, hinv⟩, hpool⟩ := execAll_completes is
    (s := s.reply (s.block.create c) .ok Config.noIndex) (Block.create_inv hwf hmin hmax) rfl
  exact ⟨t, ht, hpool, hinv hpool⟩

/-! ### The life cycle of a slot -/

/-- Settles O34, by the effects of the commands: each writes one entry, or all of the new pool's, and leaves the others. -/
theorem slotLifeCycle : Obligations.SlotLifeCycle := by
  intro i s t hs hexec k
  obtain ⟨hwf, hinv⟩ := hs
  cases exec_effect hexec with
  | unchanged _ h => exact .inl (by rw [h])
  | create c hi _ hmax h =>
    rw [h, Block.entry_create hwf hmax]
    split
    · next hk => exact .inr (.inl ⟨⟨c, hi, hk⟩, rfl⟩)
    · exact .inl rfl
  | fill a j hi hpool _ hd he h =>
    obtain ⟨⟨_, _, _, _, _, hage⟩, _⟩ := hinv hpool
    rw [h, Block.entry_fillSlot hwf _ hd]
    split
    · next hk => exact .inr (.inr (.inl ⟨⟨a, hi⟩, hk ▸ he, rfl, (isAge_iff _).2 hage⟩))
    · exact .inl rfl
  | overwrite a r hi hpool hm ht hd hr hres h =>
    obtain ⟨⟨_, hmax, _, _, _, hage⟩, _⟩ := hinv hpool
    obtain ⟨_, _, _, _, hageEq, _⟩ := Block.resync_frame hres
    rw [h, Block.entry_restamp (Block.resync_wf hwf hres) hd, Block.entry_resync hres, hageEq]
    split
    · next hk =>
      have hlive := Block.isAge_of_findEmpty_missed hmax hm ht hr
      exact .inr (.inr (.inr (.inl ⟨⟨a, hi⟩, BitVec.eq_of_toNat_eq hk, hk ▸ hlive, rfl, (isAge_iff _).2 hage⟩)))
    · exact .inl rfl
  | claim a r hi _ _ hd hr he hres h =>
    rw [h, Block.entry_claim (Block.resync_wf hwf hres) hd, Block.entry_resync hres]
    split
    · next hk =>
      exact .inr (.inr (.inr (.inr (.inl ⟨⟨a, hi⟩, BitVec.eq_of_toNat_eq hk, hk ▸ isAge_of_ne he hr, rfl⟩))))
    · exact .inl rfl
  | free j hi _ _ hd hr h =>
    rw [h, Block.entry_store hwf hd]
    split
    · next hk =>
      obtain rfl : k = j := BitVec.eq_of_toNat_eq hk
      exact .inr (.inr (.inr (.inr (.inr ⟨hi, hr, rfl⟩))))
    · exact .inl rfl

/-! ### What the host cannot tell apart (`10_state.md` R36, R38; `40_initialize.md` R94) -/

/-- Two pools alike in everything a command can read: the registers and the entries below `capacity`. -/
structure Block.SamePool (b b' : Block) : Prop where
  capacity : b.capacity = b'.capacity
  size : b.size = b'.size
  head : b.head = b'.head
  tail : b.tail = b'.tail
  age : b.age = b'.age
  entry : ∀ i < b.capacity.toNat, b.entry i = b'.entry i

/-- The part of `State.SameToHost` that speaks of the block: a pool in both or in neither, and then the same pool. -/
def Block.SameToHost (b b' : Block) : Prop :=
  b.initDone = b'.initDone ∧ (b.initDone = true → b.SamePool b')

theorem Block.SameToHost.refl (b : Block) : b.SameToHost b :=
  ⟨rfl, fun _ => ⟨rfl, rfl, rfl, rfl, rfl, fun _ _ => rfl⟩⟩

theorem Block.samePool_iff {b b' : Block} :
    b.SamePool b' ↔
      b.capacity = b'.capacity ∧ b.size = b'.size ∧ b.head = b'.head ∧ b.tail = b'.tail ∧ b.age = b'.age ∧
        ∀ i, i < b.capacity.toNat → b.entry i = b'.entry i :=
  ⟨fun ⟨hcap, hsize, hhead, htail, hage, hentry⟩ => ⟨hcap, hsize, hhead, htail, hage, hentry⟩,
    fun ⟨hcap, hsize, hhead, htail, hage, hentry⟩ => ⟨hcap, hsize, hhead, htail, hage, hentry⟩⟩

theorem State.sameToHost_iff {s t : State} :
    s.SameToHost t ↔
      s.tailReanchor = t.tailReanchor ∧ s.inbox = t.inbox ∧ s.outbox = t.outbox ∧ s.faulted = t.faulted ∧
        s.freeUsed = t.freeUsed ∧ s.block.SameToHost t.block := by
  rw [State.SameToHost, Block.SameToHost, Block.samePool_iff]

/-! What is read of two such pools is the same. -/

theorem Block.SamePool.slot?_eq {b b' : Block} (h : b.SamePool b') (i : Nat) : b'.slot? i = b.slot? i := by
  rw [Block.slot?, Block.slot?, ← h.capacity]
  split
  · next hi => rw [h.entry i hi.1]
  · rfl

theorem Block.SamePool.slot?_tail {b b' : Block} (h : b.SamePool b') {v : Byte} (hv : b.slot? b.tail.toNat = some v) :
    b'.slot? b'.tail.toNat = some v := by
  rw [h.slot?_eq, ← h.tail, hv]

theorem Block.SamePool.scan_eq {b b' : Block} (h : b.SamePool b') (want : Byte) (base fuel j : Nat) :
    b'.scan want base fuel j = b.scan want base fuel j := by
  induction fuel generalizing j with
  | zero => rfl
  | succ fuel ih => simp only [Block.scan, h.slot?_eq, ← h.capacity, ih]

theorem Block.SamePool.findEmpty_eq {b b' : Block} (h : b.SamePool b') : b'.findEmpty = b.findEmpty := by
  rw [Block.findEmpty, Block.findEmpty, h.scan_eq, h.head, h.capacity]

theorem Block.SamePool.findNextAge_eq {b b' : Block} (h : b.SamePool b') (v : Byte) : b'.findNextAge v = b.findNextAge v := by
  rw [Block.findNextAge, Block.findNextAge, h.scan_eq, h.tail, h.capacity]

/-! Each effect on two such pools makes two such pools. -/

/-- An entry replaced in both by the same byte leaves the entries below `n` alike. -/
theorem Block.entry_replace_congr {b b' c c' : Block} {k n : Nat} {v : Byte}
    (hc : ∀ i, c.entry i = if i = k then v else b.entry i)
    (hc' : ∀ i, c'.entry i = if i = k then v else b'.entry i) (h : ∀ i < n, b.entry i = b'.entry i) :
    ∀ i < n, c.entry i = c'.entry i := by
  intro i hi
  rw [hc, hc', h i hi]

theorem Block.SamePool.resync {b b' r : Block} (h : b.SamePool b') (hs : b.resync = some r) :
    ∃ r', b'.resync = some r' ∧ r.SamePool r' := by
  obtain ⟨v, hv, ⟨k, hk, _, _, _, rfl⟩ | ⟨hm, rfl⟩⟩ := Block.resync_cases hs
  · refine ⟨{ b' with tail := BitVec.ofNat 8 k }, ?_, { h with tail := rfl }⟩
    rw [Block.resync, h.slot?_tail hv]
    simp only [h.findNextAge_eq, hk]
  · refine ⟨b', ?_, h⟩
    rw [Block.resync, h.slot?_tail hv]
    simp only [h.findNextAge_eq, hm]

theorem Block.SamePool.create {b b' : Block} (hb : b.slots.wf = true) (hb' : b'.slots.wf = true) {c : Byte}
    (hmax : c.toNat ≤ 253) : (b.create c).SamePool (b'.create c) where
  capacity := rfl
  size := rfl
  head := rfl
  tail := rfl
  age := rfl
  entry i (hi : i < c.toNat) := by
    rw [Block.entry_create hb hmax, Block.entry_create hb' hmax, if_pos hi, if_pos hi]

theorem Block.SamePool.fillSlot {b b' : Block} (h : b.SamePool b') (hb : b.slots.wf = true) (hb' : b'.slots.wf = true)
    (ta : Bool) {k : Nat} (hk : k < Config.depth) : (b.fillSlot ta k).SamePool (b'.fillSlot ta k) where
  capacity := h.capacity
  size := by simp [h.size]
  head := by simp [h.capacity]
  tail := by simp [h.size, h.tail]
  age := by simp [h.age]
  entry := Block.entry_replace_congr (Block.entry_fillSlot hb ta hk) (h.age ▸ Block.entry_fillSlot hb' ta hk) h.entry

theorem Block.SamePool.restamp {b b' : Block} (h : b.SamePool b') (hb : b.slots.wf = true) (hb' : b'.slots.wf = true)
    {t : Byte} (ht : t.toNat < Config.depth) : (b.restamp t).SamePool (b'.restamp t) where
  capacity := h.capacity
  size := h.size
  head := rfl
  tail := h.tail
  age := by simp [h.age]
  entry := Block.entry_replace_congr (Block.entry_restamp hb ht) (h.age ▸ Block.entry_restamp hb' ht) h.entry

theorem Block.SamePool.claim {b b' : Block} (h : b.SamePool b') (hb : b.slots.wf = true) (hb' : b'.slots.wf = true)
    {t : Byte} (ht : t.toNat < Config.depth) : (b.claim t).SamePool (b'.claim t) where
  capacity := h.capacity
  size := by simp [h.size]
  head := h.head
  tail := h.tail
  age := h.age
  entry := Block.entry_replace_congr (Block.entry_claim hb ht) (Block.entry_claim hb' ht) h.entry

theorem Block.SamePool.store {b b' : Block} (h : b.SamePool b') (hb : b.slots.wf = true) (hb' : b'.slots.wf = true)
    {k : Nat} (hk : k < Config.depth) (v : Byte) : (b.store k v).SamePool (b'.store k v) :=
  { h with entry := Block.entry_replace_congr (Block.entry_store hb hk v) (Block.entry_store hb' hk v) h.entry }

/-! Each command answers alike on two machines the host cannot tell apart, and leaves them so. -/

theorem State.SameToHost.block {s t : State} (h : s.SameToHost t) : s.block.SameToHost t.block := by
  obtain ⟨_, _, _, _, _, hblock⟩ := State.sameToHost_iff.1 h
  exact hblock

theorem State.SameToHost.reply {s t : State} (h : s.SameToHost t) {b b' : Block} (hb : b.SameToHost b') (st : Status) (k : Byte) :
    (s.reply b st k).SameToHost (t.reply b' st k) := by
  obtain ⟨hparam, hinbox, houtbox, hfaulted, hfree, _⟩ := State.sameToHost_iff.1 h
  refine State.sameToHost_iff.2 ⟨hparam, hinbox, ?_, ?_, hfree, hb⟩
  · simp [houtbox]
  · simp [hfaulted]

theorem State.SameToHost.take {s t : State} (h : s.SameToHost t) (rest : List HostEvent) :
    (s.take rest).SameToHost (t.take rest) := by
  obtain ⟨hparam, _, houtbox, hfaulted, hfree, hblock⟩ := State.sameToHost_iff.1 h
  exact State.sameToHost_iff.2 ⟨hparam, rfl, houtbox, hfaulted, hfree, hblock⟩

theorem State.SameToHost.drawn {s t : State} (h : s.SameToHost t) : s.drawn.SameToHost t.drawn := by
  obtain ⟨hparam, hinbox, houtbox, hfaulted, hfree, hblock⟩ := State.sameToHost_iff.1 h
  exact State.sameToHost_iff.2 ⟨hparam, hinbox, houtbox, hfaulted, by simp [hfree], hblock⟩

/-- The free values a reset draws depend on the count alone, which is the same. -/
theorem State.SameToHost.hardwareReset {s t : State} (h : s.SameToHost t) : s.hardwareReset.SameToHost t.hardwareReset := by
  obtain ⟨hparam, hinbox, houtbox, hfaulted, hfree, _⟩ := State.sameToHost_iff.1 h
  refine State.sameToHost_iff.2 ⟨hparam, hinbox, houtbox, hfaulted, by simp [hfree], ?_⟩
  rw [State.hardwareReset_block, State.hardwareReset_block, hfree]
  exact Block.SameToHost.refl _

theorem exec_init_sameToHost {c : Byte} {s t s' : State} (h : s.SameToHost t) (hs : s.block.slots.wf = true)
    (ht : t.block.slots.wf = true) (he : exec (.init c) s = .next s') :
    ∃ t', exec (.init c) t = .next t' ∧ s'.SameToHost t' := by
  obtain ⟨hc, rfl⟩ | ⟨hmin, hmax, rfl⟩ := execInit_cases he
  · exact ⟨_, exec_init_refused hc, h.reply h.block _ _⟩
  · have heffect : (s.block.create c).SameToHost (t.block.create c) := ⟨rfl, fun _ => .create hs ht hmax⟩
    exact ⟨_, exec_init_ok hmin hmax, h.reply heffect _ _⟩

theorem exec_alloc_sameToHost {a : Byte} {s t s' : State} (h : s.SameToHost t) (hs : s.block.slots.wf = true)
    (ht : t.block.slots.wf = true) (he : exec (.alloc a) s = .next s') :
    ∃ t', exec (.alloc a) t = .next t' ∧ s'.SameToHost t' := by
  obtain ⟨hinit, hpool⟩ := h.block
  obtain ⟨hi, rfl⟩ | ⟨hi, k, hf, rfl⟩ | ⟨hi, hm, hv, rfl⟩ | ⟨hi, hm, v, r, hv, hr, hres, rfl⟩ := execAlloc_cases (a := a) he
  · exact ⟨_, exec_alloc_noPool (hinit ▸ hi), h.reply h.block _ _⟩
  · have hp := hpool hi
    obtain ⟨_, hk, _⟩ := Block.scan_found hf
    obtain ⟨hparam, _⟩ := State.sameToHost_iff.1 h
    have heffect : (s.block.fillSlot s.tailReanchor k).SameToHost (t.block.fillSlot t.tailReanchor k) :=
      ⟨hinit, fun _ => hparam ▸ hp.fillSlot hs ht _ hk⟩
    exact ⟨_, exec_alloc_hit (hinit ▸ hi) (hp.findEmpty_eq.trans hf), h.reply heffect _ _⟩
  · have hp := hpool hi
    exact ⟨_, exec_alloc_refused (hinit ▸ hi) (hp.findEmpty_eq.trans hm) (hp.slot?_tail hv), h.reply h.block _ _⟩
  · have hp := hpool hi
    obtain ⟨_, hk, _⟩ := Block.slot?_eq_some.1 hv
    obtain ⟨r', hres', hp'⟩ := hp.resync hres
    refine ⟨_, exec_alloc_overwrite (hinit ▸ hi) (hp.findEmpty_eq.trans hm) (hp.slot?_tail hv) hr hres', ?_⟩
    have heffect : (r.restamp s.block.tail).SameToHost (r'.restamp s.block.tail) :=
      ⟨(Block.resync_initDone hres).trans (hinit.trans (Block.resync_initDone hres').symm),
        fun _ => hp'.restamp (Block.resync_wf hs hres) (Block.resync_wf ht hres') hk⟩
    rw [← hp.tail]
    exact h.reply heffect _ _

theorem exec_reserve_sameToHost {a : Byte} {s t s' : State} (h : s.SameToHost t) (hs : s.block.slots.wf = true)
    (ht : t.block.slots.wf = true) (he : exec (.reserve a) s = .next s') :
    ∃ t', exec (.reserve a) t = .next t' ∧ s'.SameToHost t' := by
  obtain ⟨hinit, hpool⟩ := h.block
  obtain ⟨hi, rfl⟩ | ⟨hi, hz, rfl⟩ | ⟨hi, hz, hv, rfl⟩ | ⟨hi, hz, hv, rfl⟩ | ⟨hi, hz, v, r, hv, hr, hne, hres, rfl⟩ :=
    execReserve_cases (a := a) he
  · exact ⟨_, exec_reserve_noPool (hinit ▸ hi), h.reply h.block _ _⟩
  · have hp := hpool hi
    exact ⟨_, exec_reserve_drained (hinit ▸ hi) (hp.size ▸ hz), h.reply h.block _ _⟩
  · have hp := hpool hi
    exact ⟨_, exec_reserve_refused (hinit ▸ hi) (hp.size ▸ hz) (hp.slot?_tail hv), h.reply h.block _ _⟩
  · have hp := hpool hi
    exact ⟨_, exec_reserve_fault (hinit ▸ hi) (hp.size ▸ hz) (hp.slot?_tail hv), h.reply h.block _ _⟩
  · have hp := hpool hi
    obtain ⟨_, hk, _⟩ := Block.slot?_eq_some.1 hv
    obtain ⟨r', hres', hp'⟩ := hp.resync hres
    refine ⟨_, exec_reserve_ok (hinit ▸ hi) (hp.size ▸ hz) (hp.slot?_tail hv) hr hne hres', ?_⟩
    have heffect : (r.claim s.block.tail).SameToHost (r'.claim s.block.tail) :=
      ⟨(Block.resync_initDone hres).trans (hinit.trans (Block.resync_initDone hres').symm),
        fun _ => hp'.claim (Block.resync_wf hs hres) (Block.resync_wf ht hres') hk⟩
    rw [← hp.tail]
    exact h.reply heffect _ _

theorem exec_release_sameToHost {i : Byte} {s t s' : State} (h : s.SameToHost t) (hs : s.block.slots.wf = true)
    (ht : t.block.slots.wf = true) (he : exec (.release i) s = .next s') :
    ∃ t', exec (.release i) t = .next t' ∧ s'.SameToHost t' := by
  obtain ⟨hinit, hpool⟩ := h.block
  obtain ⟨hcause, rfl⟩ | ⟨hi, hc, hd, hr, rfl⟩ := execRelease_cases he
  · refine ⟨_, ?_, h.reply h.block _ _⟩
    cases hi : s.block.initDone with
    | false => exact exec_release_noPool (hinit ▸ hi)
    | true =>
      have hp := hpool hi
      by_cases hc : i.toNat < s.block.capacity.toNat
      · obtain ⟨v, hv⟩ := exec_release_reads he hi hc
        obtain ⟨_, _, rfl⟩ := Block.slot?_eq_some.1 hv
        have hr : s.block.entry i.toNat ≠ Config.reserved := by
          rcases hcause with hno | hbeyond | hr
          · rw [hi] at hno
            cases hno
          · omega
          · exact hr
        exact exec_release_notReserved (hinit ▸ hi) ((hp.slot?_eq _).trans hv) hr
      · exact exec_release_beyond (hp.capacity ▸ Nat.le_of_not_lt hc)
  · have hp := hpool hi
    have hv : s.block.slot? i.toNat = some Config.reserved := Block.slot?_eq_some.2 ⟨hc, hd, hr⟩
    have heffect : (s.block.store i.toNat Config.empty).SameToHost (t.block.store i.toNat Config.empty) :=
      ⟨hinit, fun _ => hp.store hs ht hd _⟩
    exact ⟨_, exec_release_ok (hinit ▸ hi) ((hp.slot?_eq _).trans hv), h.reply heffect _ _⟩

theorem exec_sameToHost {i : Instr} {s t s' : State} (h : s.SameToHost t) (hs : s.block.slots.wf = true)
    (ht : t.block.slots.wf = true) (he : exec i s = .next s') : ∃ t', exec i t = .next t' ∧ s'.SameToHost t' := by
  cases i with
  | init c => exact exec_init_sameToHost h hs ht he
  | alloc a => exact exec_alloc_sameToHost h hs ht he
  | reserve a => exact exec_reserve_sameToHost h hs ht he
  | release i => exact exec_release_sameToHost h hs ht he

/-! A step by the kind of event: what `State.port_cases` says of one machine, as equations, to run a second machine by. -/

theorem step_of_command {s : State} {w : CmdWord} {rest : List HostEvent} (h : s.inbox = .command w :: rest) :
    step s = exec (decode w) (s.take rest) := by
  rw [step, State.port, h]
  rfl

theorem step_of_reset {s : State} {rest : List HostEvent} (h : s.inbox = .reset :: rest) :
    step s = .next (s.take rest).hardwareReset := by
  rw [step, State.port, h]

theorem step_of_resetDuring {s : State} {w : CmdWord} {rest : List HostEvent} (h : s.inbox = .resetDuring w :: rest) :
    step s = if Config.freeBool s.freeUsed = true then resetAfter (exec (decode w) (s.take rest).drawn)
      else .next (s.take rest).drawn.hardwareReset := by
  rw [step, State.port, h]
  rfl

/-- Every step runs alike on two machines the host cannot tell apart, and leaves them so. -/
theorem step_sameToHost {s t s' : State} (h : s.SameToHost t) (hs : s.block.slots.wf = true) (ht : t.block.slots.wf = true)
    (he : step s = .next s') : ∃ t', step t = .next t' ∧ s'.SameToHost t' := by
  obtain ⟨_, hinbox, _, _, hfree, _⟩ := State.sameToHost_iff.1 h
  cases hin : s.inbox with
  | nil =>
    rw [step_of_inbox_nil hin] at he
    cases he
    exact ⟨t, step_of_inbox_nil (hinbox ▸ hin), h⟩
  | cons e rest =>
    cases e with
    | command w =>
      rw [step_of_command hin] at he
      rw [step_of_command (hinbox ▸ hin)]
      exact exec_sameToHost (h.take rest) hs ht he
    | reset =>
      rw [step_of_reset hin] at he
      cases he
      exact ⟨_, step_of_reset (hinbox ▸ hin), (h.take rest).hardwareReset⟩
    | resetDuring w =>
      rw [step_of_resetDuring hin] at he
      rw [step_of_resetDuring (hinbox ▸ hin), ← hfree]
      split at he
      · next hafter =>
        obtain ⟨u, hu, rfl⟩ := resetAfter_next he
        obtain ⟨u', hu', hsame⟩ := exec_sameToHost (h.take rest).drawn hs ht hu
        exact ⟨u'.hardwareReset, by rw [if_pos hafter, hu', resetAfter], hsame.hardwareReset⟩
      · next hbefore =>
        cases he
        exact ⟨_, if_neg hbefore, (h.take rest).drawn.hardwareReset⟩

/-- Settles O15, by the kind of event and the command: each runs alike on the two machines and keeps the canonical form. -/
theorem unspecifiedStateIsInvisible : Obligations.UnspecifiedStateIsInvisible := by
  intro s t s' h hs ht he
  obtain ⟨t', he', h'⟩ := step_sameToHost h hs ht he
  exact ⟨t', he', h', step_keeps_wf hs he, step_keeps_wf ht he'⟩

end Sys2Proof.Machine
end

section
/-! PROOFS of the statements about `20_memory.md` R57: a step runs the command that the presented word decodes to, and the word the
host presents is the one the next step runs. -/

namespace Sys2Proof

/-! ### Every command's operand fits its field (`30_encoding.md` R72, R76) -/

theorem Instr.operand_eq_argument_toNat (i : Instr) : i.operand = (argument i).toNat := by
  cases i with
  | init c => rfl
  | alloc arg => rfl
  | reserve arg => rfl
  | release k => rfl

/-- Every command is well formed, whichever word it was decoded from (`30_encoding.md` R76). -/
theorem Instr.wellFormed_eq_true (i : Instr) : i.wellFormed = true :=
  Laws.EncodedFields.wellFormed_of i (argument i) i.operand_eq_argument_toNat

/-! ### Words of the opcode table (`30_encoding.md` R70) -/

/-- A number that fits both the table's width and the command port is the command word of that value. -/
theorem tableWord_of_lt {nbits w : Nat} (hwidth : w < 2 ^ nbits) (hport : w < 1024) :
    tableWord nbits w = some (BitVec.ofNat 10 w) := by
  rw [tableWord, Nat.mod_eq_of_lt hwidth, if_pos hport]

/-- The opcode table is 16 bits wide, so every number the ten-bit port can carry fits it. -/
theorem tableWord_sixteen {w : Nat} (h : w < 1024) : tableWord 16 w = some (BitVec.ofNat 10 w) :=
  tableWord_of_lt (Nat.lt_trans h (by decide)) h

theorem decodeTableWord_of_tableWord {nbits w : Nat} {c : CmdWord} (h : tableWord nbits w = some c) :
    decodeTableWord nbits w = some (decode c) := by
  rw [decodeTableWord, h, Option.map_some]

end Sys2Proof

namespace Sys2Proof.Machine

/-! ### Presenting a word and taking it -/

theorem State.withFetchWord_of_tableWord {nbits w : Nat} {c : CmdWord} (s : State) (h : tableWord nbits w = some c) :
    s.withFetchWord nbits w = s.present c := by
  rw [State.withFetchWord, h]

/-- Taking the word just presented gives back the state it was presented to. -/
@[simp] theorem State.take_present (s : State) (c : CmdWord) : (s.present c).take s.inbox = s := rfl

theorem step_present (s : State) (c : CmdWord) : step (s.present c) = exec (decode c) s := by
  rw [step_of_command (s.present_inbox c), State.take_present]

/-- Settles O10, by the equation of a step with a command word presented. -/
theorem stepRunsDecodedCommand : Obligations.StepRunsDecodedCommand := by
  intro s w rest hinbox
  exact ⟨(decode w).wellFormed_eq_true, step_of_command hinbox⟩

/-- Settles O11: the table word is the command word of its value, and presenting it makes it the next event taken. -/
theorem presentedWordRunsNext : Obligations.PresentedWordRunsNext := by
  intro s w hport
  have hword : tableWord 16 w = some (BitVec.ofNat 10 w) := tableWord_sixteen hport
  refine ⟨decodeTableWord_of_tableWord hword, ?_⟩
  rw [s.withFetchWord_of_tableWord hword, step_present]

end Sys2Proof.Machine
end

section
/-! PROOFS of the statements about `30_encoding.md`: command words and lines of text (R70, R71, R76, R78, R79), response words (R73,
R74), the ignored argument (R72), and the one response of every command with its index (R75). -/

namespace Sys2Proof

/-! ### The two fields of a command word (R70, R71) -/

/-- A word made of a field above a byte counts that field in units of 256. -/
theorem append_byte_toNat {n : Nat} (hi : BitVec n) (lo : Byte) : (hi ++ lo).toNat = hi.toNat * 256 + lo.toNat := by
  rw [BitVec.toNat_append, ← Nat.shiftLeft_add_eq_or_of_lt lo.isLt, Nat.shiftLeft_eq]

/-- The two fields are the whole word. -/
theorem opField_append_argField (w : CmdWord) : opField w ++ argField w = w :=
  (BitVec.extractLsb'_append_extractLsb'_eq_extractLsb' rfl).trans BitVec.extractLsb'_eq_self

/-- The fields of a word are its quotient and remainder by 256 (`30_encoding.md` R79). -/
theorem fields_toNat (w : CmdWord) : (opField w).toNat = w.toNat / 256 ∧ (argField w).toNat = w.toNat % 256 := by
  have hsum : w.toNat = (opField w).toNat * 256 + (argField w).toNat := by
    rw [← append_byte_toNat, opField_append_argField]
  have harg := (argField w).isLt
  omega

theorem opField_encode (i : Instr) : opField (encode i) = opcode i :=
  opField_append _ _

theorem argField_encode (i : Instr) : argField (encode i) = argument i :=
  argField_append _ _

theorem encode_toNat (i : Instr) : (encode i).toNat = (opcode i).toNat * 256 + (argument i).toNat :=
  append_byte_toNat _ _

/-- Two bits that are none of the first three opcodes are the fourth. -/
theorem eq_three_of_ne {op : BitVec 2} (h0 : op ≠ 0b00#2) (h1 : op ≠ 0b01#2) (h2 : op ≠ 0b10#2) : op = 0b11#2 := by
  bv_omega

/-- The decoder keeps both fields: the command it answers has the word's `op` and the word's `arg`. -/
theorem decode_fields (w : CmdWord) : opcode (decode w) = opField w ∧ argument (decode w) = argField w := by
  rw [decode]
  split
  · next h0 => exact ⟨h0.symm, rfl⟩
  · next h0 =>
    split
    · next h1 => exact ⟨h1.symm, rfl⟩
    · next h1 =>
      split
      · next h2 => exact ⟨h2.symm, rfl⟩
      · next h2 => exact ⟨(eq_three_of_ne h0 h1 h2).symm, rfl⟩

/-! ### Decoder and encoder (R79) -/

theorem decode_encode (i : Instr) : decode (encode i) = i := by
  rw [decode, opField_encode, argField_encode]
  cases i with
  | init c => rfl
  | alloc arg => rfl
  | reserve arg => rfl
  | release k => rfl

theorem encode_decode (w : CmdWord) : encode (decode w) = w := by
  obtain ⟨hop, harg⟩ := decode_fields w
  rw [encode, hop, harg, opField_append_argField]

/-- Settles O1: encoding places the two fields where decoding reads them, and the two fields are the whole word. -/
theorem decodeEncodeInverse : Obligations.DecodeEncodeInverse := by
  refine ⟨fun i => ⟨i.wellFormed_eq_true, decode_encode i⟩, encode_decode, encode_toNat, fun w => ?_⟩
  obtain ⟨hquotient, hremainder⟩ := fields_toNat w
  obtain ⟨hop, harg⟩ := decode_fields w
  exact ⟨hquotient, hremainder, hop, harg⟩

/-- Settles O2: each of the words is the encoding of the command it stands for. -/
theorem tableWordsDecode : Obligations.TableWordsDecode :=
  ⟨decode_encode (.init 2), decode_encode (.init 253), decode_encode (.alloc 0), decode_encode (.alloc 0xA5),
    decode_encode (.reserve 0), decode_encode (.reserve 0xFF), decode_encode (.release 252), decode_encode (.release 0)⟩

/-! ### Lines of text (R78) -/

theorem assemble_init {n : Nat} (h : n ≤ 255) : assemble (.init n) = some (.init (BitVec.ofNat 8 n)) :=
  if_pos (decide_eq_true h)

theorem assemble_release {n : Nat} (h : n ≤ 255) : assemble (.release n) = some (.release (BitVec.ofNat 8 n)) :=
  if_pos (decide_eq_true h)

/-- A line that is not well formed is refused. -/
theorem assemble_eq_none {l : AsmLine} (h : l.wellFormed = false) : assemble l = none :=
  if_neg (Bool.eq_false_iff.1 h)

/-- An operand in range is kept whole by the `arg` field. -/
theorem operand_toNat {n : Nat} (h : n ≤ 255) : (BitVec.ofNat 8 n).toNat = n := by
  rw [BitVec.toNat_ofNat, Nat.mod_eq_of_lt (by omega)]

theorem encode_init_toNat (c : Byte) : (encode (.init c)).toNat = c.toNat := by
  have hop : (opcode (.init c)).toNat = 0 := rfl
  rw [encode_toNat, hop, Nat.zero_mul, Nat.zero_add, argument]

theorem encode_release_toNat (k : Byte) : (encode (.release k)).toNat = 0x300 + k.toNat := by
  have hop : (opcode (.release k)).toNat = 3 := rfl
  rw [encode_toNat, hop, argument]

/-- Settles O3: an operand in range survives the `arg` field, so word and line follow from the equations of `assemble`. -/
theorem assembledWords : Obligations.AssembledWords := by
  refine ⟨fun n hn => ⟨_, assemble_init hn, ?_, ?_⟩, ⟨.alloc 0, rfl, rfl, rfl⟩, ⟨.reserve 0, rfl, rfl, rfl⟩,
    fun n hn => ⟨_, assemble_release hn, ?_, ?_⟩, fun n hn => ?_⟩
  · rw [encode_init_toNat, operand_toNat hn]
  · rw [disassemble, operand_toNat hn]
  · rw [encode_release_toNat, operand_toNat hn]
  · rw [disassemble, operand_toNat hn]
  · have hwide : decide (n ≤ 255) = false := decide_eq_false (by omega)
    exact ⟨assemble_eq_none hwide, assemble_eq_none hwide⟩

end Sys2Proof

namespace Sys2Proof.Machine

/-! ### Response words (R73, R74) -/

theorem statusOfCode_statusCode (st : Status) : statusOfCode (statusCode st) = some st := by
  cases st with
  | ok => rfl
  | okOverwritten => rfl
  | badArgument => rfl
  | noUsedSlots => rfl
  | allSlotsReserved => rfl
  | fault => rfl

/-- Codes 6 and 7 are never produced (`30_encoding.md` R74). -/
theorem statusCode_le_five (st : Status) : (statusCode st).toNat ≤ 5 := by
  cases st <;> decide

theorem responseStatus_responseWord (st : Status) (k : Byte) : responseStatus (responseWord st k) = some st := by
  have hfield : (statusCode st ++ k).extractLsb' 8 3 = statusCode st := BitVec.extractLsb'_append_eq_left
  rw [responseStatus, responseWord, hfield, statusOfCode_statusCode]

theorem responseIndex_responseWord (st : Status) (k : Byte) : responseIndex (responseWord st k) = k :=
  BitVec.extractLsb'_append_eq_right

/-- Settles O4: the two fields of a response word are the two halves it was made of. -/
theorem responseFields : Obligations.ResponseFields := fun st k =>
  ⟨responseStatus_responseWord st k, responseIndex_responseWord st k, append_byte_toNat _ _, statusCode_le_five st⟩

/-! ### The argument of `ALLOC` and `RESERVE` (R72) -/

/-- Settles O6: what either command does is written without its argument. -/
theorem argumentIgnored : Obligations.ArgumentIgnored := by
  intro a b s
  have halloc : execAlloc a s = execAlloc b s := rfl
  have hreserve : execReserve a s = execReserve b s := rfl
  exact ⟨halloc, hreserve⟩

/-! ### The index of a response (R75) -/

/-- A slot of a pool of legal capacity is never written `0xFF`, the mark of no index. -/
theorem ne_noIndex_of_lt {k c : Byte} (hk : k.toNat < c.toNat) (hmax : c.toNat ≤ 253) : k ≠ Config.noIndex := by
  rintro rfl
  exact absurd hk (Nat.not_lt.2 (hmax.trans (by decide)))

/-- The hit path names the slot it fills: `EMPTY` before, stamped after. -/
theorem Block.fillSlot_named {b : Block} (h : b.Inv) (hpool : b.initDone = true) (ta : Bool) {k : Nat}
    (hf : b.findEmpty = .found k) :
    (BitVec.ofNat 8 k).toNat < b.capacity.toNat ∧ BitVec.ofNat 8 k ≠ Config.noIndex ∧
      b.entry (BitVec.ofNat 8 k).toNat = Config.empty ∧ (b.fillSlot ta k).entry (BitVec.ofNat 8 k).toNat = b.age := by
  obtain ⟨hwf, hinv⟩ := h
  obtain ⟨⟨_, hmax, _⟩, _⟩ := hinv hpool
  obtain ⟨hk, hd, he⟩ := Block.scan_found hf
  have hfit : (BitVec.ofNat 8 k).toNat = k := cursor_toNat hk
  have hslot : (BitVec.ofNat 8 k).toNat < b.capacity.toNat := hfit.symm ▸ hk
  refine ⟨hslot, ne_noIndex_of_lt hslot hmax, hfit.symm ▸ he, ?_⟩
  rw [hfit, Block.entry_fillSlot hwf ta hd, if_pos rfl]

/-- The slot at `tail`, which the overwrite path and `RESERVE` name, is a slot of the pool. -/
theorem Block.tail_named {b : Block} (h : b.Inv) (hpool : b.initDone = true) :
    b.tail.toNat < b.capacity.toNat ∧ b.tail ≠ Config.noIndex := by
  obtain ⟨_, hinv⟩ := h
  obtain ⟨⟨_, hmax, _, _, htail, _⟩, _⟩ := hinv hpool
  exact ⟨htail, ne_noIndex_of_lt htail hmax⟩

theorem Block.resync_capacity {b r : Block} (h : b.resync = some r) : r.capacity = b.capacity := by
  obtain ⟨_, hcap, _⟩ := Block.resync_frame h
  exact hcap

/-- After re-sync the overwritten slot bears the stamp that `age` held before it. -/
theorem Block.entry_restamp_resync {b r : Block} (h : b.slots.wf = true) (hs : b.resync = some r) {t : Byte}
    (ht : t.toNat < Config.depth) : (r.restamp t).entry t.toNat = b.age := by
  obtain ⟨_, _, _, _, hage, _⟩ := Block.resync_frame hs
  rw [Block.entry_restamp (Block.resync_wf h hs) ht, if_pos rfl, hage]

theorem Block.entry_claim_resync {b r : Block} (h : b.slots.wf = true) (hs : b.resync = some r) {t : Byte}
    (ht : t.toNat < Config.depth) : (r.claim t).entry t.toNat = Config.reserved := by
  rw [Block.entry_claim (Block.resync_wf h hs) ht, if_pos rfl]

/-- Settles O5, by what each command answers: the three successes that name a slot, and every other response, which names none. -/
theorem oneResponseWithIndex : Obligations.OneResponseWithIndex := by
  intro i s hs
  obtain ⟨t, ht, _⟩ := exec_completes i hs
  have ⟨hwf, hinv⟩ := hs
  cases i with
  | init c =>
    obtain ⟨_, rfl⟩ | ⟨_, _, rfl⟩ := execInit_cases ht
    · exact ⟨_, _, _, ⟨ht, rfl⟩, rfl⟩
    · exact ⟨_, _, _, ⟨ht, rfl⟩, rfl⟩
  | alloc a =>
    obtain ⟨_, rfl⟩ | ⟨hpool, k, hf, rfl⟩ | ⟨_, _, _, rfl⟩ | ⟨hpool, hm, v, r, hv, hr, hres, rfl⟩ :=
      execAlloc_cases (a := a) ht
    · exact ⟨_, _, _, ⟨ht, rfl⟩, rfl⟩
    · exact ⟨_, _, _, ⟨ht, rfl⟩, Block.fillSlot_named hs hpool s.tailReanchor hf⟩
    · exact ⟨_, _, _, ⟨ht, rfl⟩, rfl⟩
    · obtain ⟨_, hd, rfl⟩ := Block.slot?_eq_some.1 hv
      obtain ⟨⟨_, hmax, _⟩, _⟩ := hinv hpool
      obtain ⟨htail, hindex⟩ := Block.tail_named hs hpool
      exact ⟨_, _, _, ⟨ht, rfl⟩, (Block.resync_capacity hres).symm ▸ htail, hindex, rfl,
        Block.isAge_of_findEmpty_missed hmax hm htail hr, Block.entry_restamp_resync hwf hres hd⟩
  | reserve a =>
    obtain ⟨_, rfl⟩ | ⟨_, _, rfl⟩ | ⟨_, _, _, rfl⟩ | ⟨_, _, _, rfl⟩ | ⟨hpool, _, v, r, hv, hr, he, hres, rfl⟩ :=
      execReserve_cases (a := a) ht
    · exact ⟨_, _, _, ⟨ht, rfl⟩, rfl⟩
    · exact ⟨_, _, _, ⟨ht, rfl⟩, rfl⟩
    · exact ⟨_, _, _, ⟨ht, rfl⟩, rfl⟩
    · exact ⟨_, _, _, ⟨ht, rfl⟩, rfl⟩
    · obtain ⟨_, hd, rfl⟩ := Block.slot?_eq_some.1 hv
      obtain ⟨htail, hindex⟩ := Block.tail_named hs hpool
      exact ⟨_, _, _, ⟨ht, rfl⟩, (Block.resync_capacity hres).symm ▸ htail, hindex, rfl, isAge_of_ne he hr,
        Block.entry_claim_resync hwf hres hd⟩
  | release k =>
    obtain ⟨_, rfl⟩ | ⟨_, _, _, _, rfl⟩ := execRelease_cases ht
    · exact ⟨_, _, _, ⟨ht, rfl⟩, rfl⟩
    · exact ⟨_, _, _, ⟨ht, rfl⟩, rfl⟩

end Sys2Proof.Machine
end

section
/-! PROOFS of the statements about `40_initialize.md`: what a failed `INIT` leaves (R91), the pool that a successful one creates (R90,
R92, R94), and that it alone writes `capacity` (R93). -/

namespace Sys2Proof.Machine

/-- Settles O17, by what a refused `INIT` answers: a response other than `Fault` on the block as it was. -/
theorem failedInitChangesNothing : Obligations.FailedInitChangesNothing := by
  intro c s hrange
  rw [exec_init_refused hrange, State.reply_same_block s (by decide)]

/-! ### The pool that `INIT` creates (R90, R92, R94) -/

/-- A response other than `Fault` changes nothing outside the block but the responses given. -/
theorem State.reply_of_ne_fault (s : State) (b : Block) {st : Status} (h : st ≠ .fault) (k : Byte) :
    s.reply b st k = { s with block := b, outbox := s.outbox ++ [responseWord st k] } := by
  simp [State.reply, h]

theorem Block.entry_create_of_lt {b : Block} (h : b.slots.wf = true) {c : Byte} (hc : c.toNat ≤ Config.depth) {i : Nat}
    (hi : i < c.toNat) : (b.create c).entry i = Config.empty := by
  rw [Block.entry_create h hc, if_pos hi]

/-- Entries from `c` on keep what they held (log entry 14). -/
theorem Block.entry_create_of_le {b : Block} (h : b.slots.wf = true) {c : Byte} (hc : c.toNat ≤ Config.depth) {i : Nat}
    (hi : c.toNat ≤ i) : (b.create c).entry i = b.entry i := by
  rw [Block.entry_create h hc, if_neg (Nat.not_lt.2 hi)]

/-- Settles O16, with the slot array of the created pool. -/
theorem initCreatesEmptyPool : Obligations.InitCreatesEmptyPool := by
  intro c s hwf hmin hmax
  refine ⟨(s.block.create c).slots, Memory.fill_wf hwf _ _, fun i hi => Block.entry_create_of_lt hwf hmax hi,
    fun i hi => Block.entry_create_of_le hwf hmax hi, ?_⟩
  rw [exec_init_ok hmin hmax, State.reply_of_ne_fault s _ (by decide)]
  rfl

/-! ### What writes `capacity` (R93) -/

/-- Every effect but `create` keeps `capacity`. -/
theorem Effect.capacity {i : Instr} {ta : Bool} {b b' : Block} (he : Effect i ta b b') :
    b'.capacity = b.capacity ∨ ∃ c, i = .init c ∧ 2 ≤ c.toNat ∧ c.toNat ≤ 253 ∧ b'.capacity = c := by
  cases he with
  | unchanged _ h => exact .inl (by rw [h])
  | create c hi hmin hmax h => exact .inr ⟨c, hi, hmin, hmax, by rw [h, Block.create_capacity]⟩
  | fill a k _ _ _ _ _ h => exact .inl (by rw [h, Block.fillSlot_capacity])
  | overwrite a r _ _ _ _ _ _ hs h => exact .inl (by rw [h, Block.restamp_capacity, Block.resync_capacity hs])
  | claim a r _ _ _ _ _ _ hs h => exact .inl (by rw [h, Block.claim_capacity, Block.resync_capacity hs])
  | free k _ _ _ _ _ h => exact .inl (by rw [h, Block.store_capacity])

/-- Settles O32, by the effects of the commands. -/
theorem capacityFixedUntilInit : Obligations.CapacityFixedUntilInit := by
  intro i s t h hne
  exact (exec_effect h).capacity.resolve_left hne

end Sys2Proof.Machine
end

section
/-! PROOFS of the statements about `41_allocate_head.md`: the hit path (R101, R102), the re-anchor step and what `TAIL_REANCHOR` decides
(R103, and `45_properties.md` R166), the refusal (R104), and the overwrite path (R105 to R107) with its re-sync. -/

namespace Sys2Proof.Machine

/-! ### The `EMPTY` scan and the entry at `tail` (R101, R104) -/

/-- The `EMPTY` scan misses where no entry of the pool is `EMPTY`. -/
theorem Block.findEmpty_missed {b : Block} (hpos : 0 < b.capacity.toNat) (hd : b.capacity.toNat ≤ Config.depth)
    (hno : ∀ i < b.capacity.toNat, b.entry i ≠ Config.empty) : b.findEmpty = .missed :=
  (Block.scan_missed hpos hd).2 hno

/-- Settles O22: the scan misses, and the entry at `tail` alone decides. -/
theorem allocRefusedAtReservedTail : Obligations.AllocRefusedAtReservedTail := by
  intro a s hpool hd htail hno hreserved
  have hmiss : s.block.findEmpty = .missed := Block.findEmpty_missed (by omega) hd hno
  have hread : s.block.slot? s.block.tail.toNat = some Config.reserved :=
    (Block.slot?_of_lt htail hd).trans (congrArg some hreserved)
  rw [exec_alloc_refused hpool hmiss hread, State.reply_same_block s (by decide)]

/-! ### The hit path (R102, R103) -/

/-- Settles O20, with the slot array that the hit path leaves: the scan answers the first `EMPTY` entry, which fits a cursor. -/
theorem allocFillsFirstEmpty : Obligations.AllocFillsFirstEmpty := by
  intro a s j hwf hpool hd hj hempty hfirst
  have hfound := Block.findEmpty_of_first hd hj hempty hfirst
  have hlt := idxAdd_lt s.block.capacity s.block.head.toNat j (by omega)
  have hfit := cursor_toNat hlt
  refine ⟨_, (s.block.fillSlot s.tailReanchor (idxAdd s.block.capacity s.block.head.toNat j)).slots, hfit,
    Memory.write_wf hwf _ _, ?_, fun i hi => ?_, ?_⟩
  · rw [hfit]
    exact (Block.entry_fillSlot hwf s.tailReanchor (hlt.trans_le hd) _).trans (if_pos rfl)
  · rw [hfit] at hi
    exact Memory.read_write_other hwf _ _ hi
  · rw [exec_alloc_hit hpool hfound, State.reply_of_ne_fault s _ (by decide)]
    rfl

/-! ### The overwrite path (R105 to R107) -/

/-- Settles O21: the scan misses, re-sync in a pool of legal cursors answers as `Block.resync_of_legal` says, and the slot array is
the one that the overwrite leaves. -/
theorem allocOverwritesTail : Obligations.AllocOverwritesTail := by
  intro a s hwf hpool hd htail hno hlive
  have hmiss : s.block.findEmpty = .missed := Block.findEmpty_missed (by omega) hd hno
  obtain ⟨tail', hresync, hmove⟩ := Block.resync_of_legal s.block hd htail
  refine ⟨tail', (s.block.restamp s.block.tail).slots, hmove, Memory.write_wf hwf _ _, ?_,
    fun i hi => Memory.read_write_other hwf _ _ hi, ?_⟩
  · exact (Block.entry_restamp hwf (htail.trans_le hd) _).trans (if_pos rfl)
  · rw [exec_alloc_overwrite hpool hmiss (Block.slot?_of_lt htail hd) hlive hresync, State.reply_of_ne_fault s _ (by decide)]
    rfl

/-- Only the overwrite path answers `OkOverwritten`, and it names the old `tail`. -/
theorem alloc_okOverwritten_block {a k : Byte} {s t : State} (h : Answers (.alloc a) s t .okOverwritten k) :
    k = s.block.tail ∧ ∃ r, s.block.resync = some r ∧ t.block = r.restamp s.block.tail := by
  obtain ⟨hexec, hout⟩ := h
  obtain ⟨_, rfl⟩ | ⟨_, _, _, rfl⟩ | ⟨_, _, _, rfl⟩ | ⟨_, _, _, r, _, _, hresync, rfl⟩ := execAlloc_cases (a := a) hexec <;>
    obtain ⟨hst, hk⟩ := reply_answers hout
  · cases hst
  · cases hst
  · cases hst
  · exact ⟨hk.symm, r, hresync, rfl⟩

/-- Settles O23: neither re-sync nor the overwrite writes `size`. -/
theorem overwriteKeepsSize : Obligations.OverwriteKeepsSize := by
  intro a k s t h
  obtain ⟨_, r, hresync, hblock⟩ := alloc_okOverwritten_block h
  obtain ⟨_, _, hsize, _⟩ := Block.resync_frame hresync
  rw [hblock, Block.restamp_size, hsize]

/-- Settles O24: the overwrite sets `head` to the entry it re-stamps, the old `tail`. -/
theorem overwriteLeavesHeadAtVictim : Obligations.OverwriteLeavesHeadAtVictim := by
  intro a k s t h
  obtain ⟨rfl, r, _, hblock⟩ := alloc_okOverwritten_block h
  exact ⟨by rw [hblock, Block.restamp_head], rfl⟩

/-! ### What `TAIL_REANCHOR` decides (R103; `45_properties.md` R166) -/

/-- The same machine as an instance with `ta` for `TAIL_REANCHOR`. -/
def State.withSetting (s : State) (ta : Bool) : State :=
  { s with tailReanchor := ta }

@[simp] theorem State.withSetting_block (s : State) (ta : Bool) : (s.withSetting ta).block = s.block := rfl

@[simp] theorem State.withSetting_tailReanchor (s : State) (ta : Bool) : (s.withSetting ta).tailReanchor = ta := rfl

@[simp] theorem State.withSetting_withSetting (s : State) (ta tb : Bool) :
    (s.withSetting ta).withSetting tb = s.withSetting tb := rfl

theorem State.withSetting_self {s : State} {ta : Bool} (h : s.tailReanchor = ta) : s.withSetting ta = s := by
  subst h
  rfl

/-- The re-anchor step moves nothing where `tail` is already at the entry that the hit path fills. -/
theorem Block.fillSlot_tail_of_anchored {b : Block} {k : Nat} (h : b.size = 0 → k = b.tail.toNat) (ta : Bool) :
    (b.fillSlot ta k).tail = b.tail := by
  rw [Block.fillSlot_tail]
  split
  · next hanchor => rw [h hanchor.2, BitVec.ofNat_toNat, BitVec.setWidth_eq]
  · rfl

/-- The hit path reads the setting for `tail` alone. -/
theorem Block.fillSlot_setting {b : Block} {k : Nat} (h : b.size = 0 → k = b.tail.toNat) (ta tb : Bool) :
    b.fillSlot ta k = b.fillSlot tb k :=
  calc b.fillSlot ta k
    _ = { b.fillSlot tb k with tail := (b.fillSlot ta k).tail } := rfl
    _ = { b.fillSlot tb k with tail := (b.fillSlot tb k).tail } := by
      rw [Block.fillSlot_tail_of_anchored h ta, Block.fillSlot_tail_of_anchored h tb]

theorem exec_init_withSetting {c : Byte} {s t : State} {ta : Bool} (tb : Bool)
    (h : exec (.init c) (s.withSetting ta) = .next t) : exec (.init c) (s.withSetting tb) = .next (t.withSetting tb) := by
  obtain ⟨hrange, rfl⟩ | ⟨hmin, hmax, rfl⟩ := execInit_cases h
  · exact exec_init_refused hrange
  · exact exec_init_ok hmin hmax

/-- `ALLOC` reads the setting on the hit path alone. -/
theorem exec_alloc_withSetting {a : Byte} {s t : State} {ta : Bool} (tb : Bool)
    (hanchor : ∀ k, s.block.findEmpty = .found k → s.block.size = 0 → k = s.block.tail.toNat)
    (h : exec (.alloc a) (s.withSetting ta) = .next t) : exec (.alloc a) (s.withSetting tb) = .next (t.withSetting tb) := by
  obtain ⟨hpool, rfl⟩ | ⟨hpool, k, hfound, rfl⟩ | ⟨hpool, hmiss, hv, rfl⟩ | ⟨hpool, hmiss, v, r, hv, hr, hresync, rfl⟩ :=
    execAlloc_cases (a := a) h
  · exact exec_alloc_noPool hpool
  · have heffect : s.block.fillSlot tb k = s.block.fillSlot ta k := Block.fillSlot_setting (hanchor k hfound) tb ta
    rw [exec_alloc_hit (s := s.withSetting tb) hpool hfound, State.withSetting_block, State.withSetting_tailReanchor, heffect]
    rfl
  · exact exec_alloc_refused hpool hmiss hv
  · exact exec_alloc_overwrite hpool hmiss hv hr hresync

theorem exec_reserve_withSetting {a : Byte} {s t : State} {ta : Bool} (tb : Bool)
    (h : exec (.reserve a) (s.withSetting ta) = .next t) :
    exec (.reserve a) (s.withSetting tb) = .next (t.withSetting tb) := by
  obtain ⟨hpool, rfl⟩ | ⟨hpool, hz, rfl⟩ | ⟨hpool, hz, hv, rfl⟩ | ⟨hpool, hz, hv, rfl⟩ |
    ⟨hpool, hz, v, r, hv, hr, he, hresync, rfl⟩ := execReserve_cases (a := a) h
  · exact exec_reserve_noPool hpool
  · exact exec_reserve_drained hpool hz
  · exact exec_reserve_refused hpool hz hv
  · exact exec_reserve_fault hpool hz hv
  · exact exec_reserve_ok hpool hz hv hr he hresync

theorem exec_release_withSetting {i : Byte} {s t : State} {ta : Bool} (tb : Bool)
    (h : exec (.release i) (s.withSetting ta) = .next t) :
    exec (.release i) (s.withSetting tb) = .next (t.withSetting tb) := by
  obtain ⟨hcause, rfl⟩ | ⟨hpool, hc, hd, hr, rfl⟩ := execRelease_cases h
  · cases hpool : s.block.initDone with
    | false => exact exec_release_noPool hpool
    | true =>
      by_cases hc : i.toNat < s.block.capacity.toNat
      · obtain ⟨v, hv⟩ := exec_release_reads h hpool hc
        obtain ⟨_, _, rfl⟩ := Block.slot?_eq_some.1 hv
        have hr : s.block.entry i.toNat ≠ Config.reserved :=
          (hcause.resolve_left (by simp [hpool])).resolve_left (Nat.not_le.2 hc)
        exact exec_release_notReserved hpool hv hr
      · exact exec_release_beyond (Nat.le_of_not_lt hc)
  · exact exec_release_ok hpool (Block.slot?_eq_some.2 ⟨hc, hd, hr⟩)

/-- A command that answers at one setting answers the same at the other, unless it is an `ALLOC` that re-anchors. -/
theorem exec_withSetting {i : Instr} {s t : State} {ta : Bool} (tb : Bool)
    (hanchor : ∀ a k, i = .alloc a → s.block.findEmpty = .found k → s.block.size = 0 → k = s.block.tail.toNat)
    (h : exec i (s.withSetting ta) = .next t) : exec i (s.withSetting tb) = .next (t.withSetting tb) := by
  cases i with
  | init c => exact exec_init_withSetting tb h
  | alloc a => exact exec_alloc_withSetting tb (fun k => hanchor a k rfl) h
  | reserve a => exact exec_reserve_withSetting tb h
  | release i => exact exec_release_withSetting tb h

/-- Settles O48, by carrying the answer at either setting over to the other; no command writes the setting. -/
theorem settingsAgree : Obligations.SettingsAgree := by
  intro i s hanchor t
  constructor
  · intro h
    obtain ⟨_, hsetting, _⟩ := exec_frame h
    exact ⟨exec_withSetting (ta := true) false hanchor h, hsetting⟩
  · rintro ⟨h, hsetting⟩
    have hback : exec i (s.withSetting true) = .next ((t.withSetting false).withSetting true) :=
      exec_withSetting (ta := false) true hanchor h
    rw [State.withSetting_withSetting, State.withSetting_self hsetting] at hback
    exact hback

end Sys2Proof.Machine
end

section
/-! PROOFS of the statements about `42_tail_resync.md`: what `RESERVE` does with its re-sync (R116, R117, R119; `43_reserve_tail.md` R128),
what re-sync finds in a window (R121), and that every command keeps the window (`45_properties.md` R152). -/

namespace Sys2Proof.Machine

/-! ### `RESERVE` (R128) -/

/-- Settles O25: re-sync in a pool of legal cursors answers as `Block.resync_of_legal` says, and the slot array is the one that
`RESERVE` leaves. -/
theorem reserveTakesTail : Obligations.ReserveTakesTail := by
  intro a s hwf hpool hd htail hsize hempty hreserved
  obtain ⟨tail', hresync, hmove⟩ := Block.resync_of_legal s.block hd htail
  refine ⟨tail', (s.block.claim s.block.tail).slots, hmove, Memory.write_wf hwf _ _, ?_,
    fun i hi => Memory.read_write_other hwf _ _ hi, ?_⟩
  · exact (Block.entry_claim hwf (htail.trans_le hd) _).trans (if_pos rfl)
  · rw [exec_reserve_ok hpool hsize (Block.slot?_of_lt htail hd) hreserved hempty hresync,
      State.reply_of_ne_fault s _ (by decide)]
    rfl

/-! ### The age wheel (`00_scope.md` R12, `45_properties.md` R160) -/

/-- `m` steps of the wheel from an age. -/
theorem iterate_nextAge_toNat {a : Byte} (h : isAge a = true) (m : Nat) :
    isAge (nextAge^[m] a) = true ∧ (nextAge^[m] a).toNat = (a.toNat - 1 + m) % 254 + 1 := by
  induction m with
  | zero =>
    obtain ⟨hmin, hmax⟩ := (isAge_iff a).1 h
    exact ⟨h, by rw [Function.iterate_zero_apply]; omega⟩
  | succ m ih =>
    obtain ⟨hage, hval⟩ := ih
    obtain ⟨hmin, hmax⟩ := (isAge_iff _).1 hage
    rw [Function.iterate_succ_apply']
    refine ⟨isAge_nextAge hage, ?_⟩
    rw [nextAge_toNat _ hmin hmax]
    split <;> omega

/-- Fewer than a whole turn of the wheel tells two numbers of steps apart. -/
theorem iterate_nextAge_inj {a : Byte} (h : isAge a = true) {m n : Nat} (hm : m < 254) (hn : n < 254)
    (heq : nextAge^[m] a = nextAge^[n] a) : m = n := by
  have hval := congrArg BitVec.toNat heq
  rw [(iterate_nextAge_toNat h m).2, (iterate_nextAge_toNat h n).2] at hval
  omega

/-- A list in which each byte is the next age of the one before it is a run of the wheel. -/
theorem eq_iterate_of_isChain {a : Byte} {l : List Byte} (h : (a :: l).IsChain fun u v => v = nextAge u) :
    a :: l = List.iterate nextAge a (l.length + 1) := by
  induction l generalizing a with
  | nil => rfl
  | cons v l ih =>
    obtain ⟨rfl, hrest⟩ := List.isChain_cons_cons.1 h
    exact congrArg (a :: ·) (ih hrest)

/-- A run of the wheel no longer than the wheel repeats nothing (`45_properties.md` R149). -/
theorem nodup_of_isChain_nextAge {l : List Byte} (h : l.IsChain fun u v => v = nextAge u) (hage : ∀ v ∈ l, isAge v = true)
    (hlen : l.length ≤ 254) : l.Nodup := by
  cases l with
  | nil => exact List.nodup_nil
  | cons a l =>
    have ha := hage a List.mem_cons_self
    rw [eq_iterate_of_isChain h, ← List.range_map_iterate]
    refine List.Nodup.map_on (fun m hm n hn heq => ?_) List.nodup_range
    rw [List.mem_range] at hm hn
    exact iterate_nextAge_inj ha (hm.trans_le hlen) (hn.trans_le hlen) heq

/-! ### The stamps of a list of slots, followed by `age`, as a run of the wheel (`45_properties.md` R152 (ii), (iii)) -/

/-- The stamps at `L`, then the stamp that comes next. -/
def Block.stamps (b : Block) (L : List Nat) : List Byte :=
  L.map b.entry ++ [b.age]

theorem Block.stamps_append (b : Block) (L : List Nat) (k : Nat) :
    b.stamps (L ++ [k]) = L.map b.entry ++ [b.entry k] ++ [b.age] := by
  rw [Block.stamps, List.map_append, List.map_singleton]

/-- The stamps at `L` and then `age` are a run of the wheel. -/
abbrev Block.OnWheel (b : Block) (L : List Nat) : Prop :=
  (b.stamps L).IsChain fun u v => v = nextAge u

@[simp] theorem Block.onWheel_nil (b : Block) : b.OnWheel [] :=
  List.isChain_singleton _

theorem Block.onWheel_singleton (b : Block) (i : Nat) : b.OnWheel [i] ↔ b.age = nextAge (b.entry i) :=
  List.isChain_pair

theorem Block.onWheel_cons_cons (b : Block) (i j : Nat) (L : List Nat) :
    b.OnWheel (i :: j :: L) ↔ b.entry j = nextAge (b.entry i) ∧ b.OnWheel (j :: L) :=
  List.isChain_cons_cons

theorem Block.OnWheel.of_cons {b : Block} {i : Nat} {L : List Nat} (h : b.OnWheel (i :: L)) : b.OnWheel L :=
  List.IsChain.tail h

theorem Block.consecutive_iff_onWheel (b : Block) (L : List Nat) : b.consecutive L = true ↔ b.OnWheel L := by
  induction L with
  | nil => simp [Block.consecutive]
  | cons i L ih =>
    cases L with
    | nil => rw [Block.consecutive, decide_eq_true_iff, Block.onWheel_singleton, eq_comm]
    | cons j L => rw [Block.consecutive, Bool.and_eq_true, decide_eq_true_iff, ih, Block.onWheel_cons_cons]

theorem Block.OnWheel.congr {b b' : Block} {L : List Nat} (h : b.OnWheel L) (hentry : ∀ i ∈ L, b'.entry i = b.entry i)
    (hage : b'.age = b.age) : b'.OnWheel L := by
  rw [Block.OnWheel, Block.stamps, List.map_congr_left hentry, hage]
  exact h

/-- A slot stamped with `age`, after which `age` advances, goes to the back. -/
theorem Block.OnWheel.append {b b' : Block} {L : List Nat} {k : Nat} (h : b.OnWheel L)
    (hentry : ∀ i ∈ L, b'.entry i = b.entry i) (hk : b'.entry k = b.age) (hage : b'.age = nextAge b.age) :
    b'.OnWheel (L ++ [k]) := by
  rw [Block.OnWheel, Block.stamps_append, List.map_congr_left hentry, hk, hage]
  exact List.isChain_append.2 ⟨h, List.isChain_singleton _, by simp⟩

/-! ### The window, as the proofs use it -/

/-- A slot of the pool that holds a live entry. -/
abbrev Block.Live (b : Block) (i : Nat) : Prop :=
  i < b.capacity.toNat ∧ isAge (b.entry i) = true

/-- A list as long as `size` says is empty exactly where `size` is 0. -/
theorem size_eq_zero_iff_of_length {L : List Nat} {size : Byte} (h : L.length = size.toNat) : size = 0 ↔ L = [] := by
  rw [← List.length_eq_zero_iff, h]
  exact ⟨congrArg BitVec.toNat, fun hz => BitVec.eq_of_toNat_eq hz⟩

theorem Block.window_iff {b : Block} {L : List Nat} :
    b.Window L ↔
      L.length = b.size.toNat ∧ L.Nodup ∧ (∀ i, i ∈ L ↔ b.Live i) ∧ b.OnWheel L ∧ ∀ i ∈ L.head?, i = b.tail.toNat := by
  rw [Block.Window, Block.consecutive_iff_onWheel]
  constructor
  · rintro ⟨hlen, hnodup, hlive, hmem, hwheel, hfront⟩
    refine ⟨hlen, hnodup, fun i => ⟨hlive i, fun ⟨hc, ha⟩ => hmem i hc ha⟩, hwheel, fun i hi => ?_⟩
    rw [hfront] at hi
    split at hi
    · cases hi
    · exact (Option.some.inj hi).symm
  · rintro ⟨hlen, hnodup, hmem, hwheel, hfront⟩
    refine ⟨hlen, hnodup, fun i => (hmem i).1, fun i hc ha => (hmem i).2 ⟨hc, ha⟩, hwheel, ?_⟩
    cases L with
    | nil => rw [if_pos ((size_eq_zero_iff_of_length hlen).2 rfl), List.head?_nil]
    | cons i L => rw [if_neg (mt (size_eq_zero_iff_of_length hlen).1 nofun), List.head?_cons, hfront i rfl]

/-- Where the slot at `tail` is live it is the front of the window (`45_properties.md` R152 (iv)). -/
theorem Block.Window.eq_tail_cons {b : Block} {L : List Nat} (h : b.Window L) (hlive : b.Live b.tail.toNat) :
    ∃ L', L = b.tail.toNat :: L' := by
  obtain ⟨_, _, hmem, _, hfront⟩ := Block.window_iff.1 h
  cases L with
  | nil => exact absurd ((hmem _).2 hlive) List.not_mem_nil
  | cons i L => exact ⟨L, by rw [hfront i rfl]⟩

/-- The live stamps of a window are pairwise distinct (`45_properties.md` R149). -/
theorem Block.Window.entry_inj {b : Block} {L : List Nat} (hb : b.Inv) (hpool : b.initDone = true) (h : b.Window L)
    {i j : Nat} (hi : i ∈ L) (hj : j ∈ L) (heq : b.entry i = b.entry j) : i = j := by
  obtain ⟨_, hinv⟩ := hb
  obtain ⟨⟨_, hmax, hsize, _, _, hage⟩, _⟩ := hinv hpool
  obtain ⟨hlen, _, hmem, hwheel, _⟩ := Block.window_iff.1 h
  have hages : ∀ v ∈ b.stamps L, isAge v = true := by
    intro v hv
    rw [Block.stamps, List.mem_append, List.mem_map, List.mem_singleton] at hv
    obtain ⟨k, hk, rfl⟩ | rfl := hv
    · exact ((hmem k).1 hk).2
    · exact (isAge_iff _).2 hage
  have hshort : (b.stamps L).length ≤ 254 := by
    rw [Block.stamps, List.length_append, List.length_map, List.length_singleton]
    omega
  have hdistinct := nodup_of_isChain_nextAge hwheel hages hshort
  exact List.inj_on_of_nodup_map hdistinct.of_append_left hi hj heq

/-! ### Re-sync in a window (R121) -/

/-- In a window re-sync moves `tail` to the second-oldest live slot, or leaves it where there is none. -/
theorem Block.Window.resync {b : Block} {i : Nat} {L : List Nat} (hb : b.Inv) (hpool : b.initDone = true)
    (h : b.Window (i :: L)) : b.resync = some { b with tail := BitVec.ofNat 8 (L.headD i) } := by
  have ⟨_, hinv⟩ := hb
  obtain ⟨⟨_, hmax, _, _, htail, _⟩, _⟩ := hinv hpool
  obtain ⟨_, _, hmem, hwheel, hfront⟩ := Block.window_iff.1 h
  obtain rfl : i = b.tail.toNat := hfront i rfl
  obtain ⟨_, hage⟩ := (hmem _).1 List.mem_cons_self
  obtain ⟨tail', hresync, hmove⟩ := Block.resync_of_legal b hmax htail
  have hpos : 0 < b.capacity.toNat := by omega
  have hnext : ∀ k < b.capacity.toNat, b.entry k = nextAge (b.entry b.tail.toNat) → k ∈ b.tail.toNat :: L :=
    fun k hk he => (hmem k).2 ⟨hk, he ▸ isAge_nextAge hage⟩
  suffices htarget : tail'.toNat = L.headD b.tail.toNat by
    rw [hresync, ← htarget, BitVec.ofNat_toNat, BitVec.setWidth_eq]
  cases L with
  | nil =>
    obtain ⟨d, _, hk, he, _⟩ | ⟨rfl, _⟩ := hmove
    · exact List.mem_singleton.1 (hnext _ (hk ▸ idxAdd_lt _ _ _ hpos) he)
    · rfl
  | cons j L =>
    obtain ⟨hsecond, _⟩ := (b.onWheel_cons_cons _ _ _).1 hwheel
    have hj : j ∈ b.tail.toNat :: j :: L := List.mem_cons_of_mem _ List.mem_cons_self
    obtain ⟨d, _, hk, he, _⟩ | ⟨_, hno⟩ := hmove
    · exact h.entry_inj hb hpool (hnext _ (hk ▸ idxAdd_lt _ _ _ hpos) he) hj (he.trans hsecond.symm)
    · exact absurd hsecond (hno j ((hmem j).1 hj).1)

/-- Settles O42, by `Block.Window.resync`, and because a window names no slot twice. -/
theorem resyncFindsSecondOldest : Obligations.ResyncFindsSecondOldest := by
  intro b i L hb hpool h
  refine ⟨h.resync hb hpool, ?_⟩
  obtain ⟨hlen, hnodup, _⟩ := Block.window_iff.1 h
  rw [← hlen]
  cases L with
  | nil => simp
  | cons j L =>
    have hne : j ≠ i := by
      rintro rfl
      exact (List.nodup_cons.1 hnodup).1 List.mem_cons_self
    simp [hne]

/-! ### The window before and after one entry is written -/

/-- `L` lists the live slots other than `k`, each once, and their stamps are a run of the wheel that ends just before `age`. -/
abbrev Block.Others (b : Block) (k : Nat) (L : List Nat) : Prop :=
  L.Nodup ∧ b.OnWheel L ∧ ∀ i, i ∈ L ↔ i ≠ k ∧ b.Live i

/-- The second-oldest live slot, or the only one, is a slot of the pool. -/
theorem Block.Window.headD_lt {b : Block} {i : Nat} {L : List Nat} (h : b.Window (i :: L)) : L.headD i < b.capacity.toNat := by
  obtain ⟨_, _, hmem, _⟩ := Block.window_iff.1 h
  cases L with
  | nil => exact ((hmem i).1 List.mem_cons_self).1
  | cons j L => exact ((hmem j).1 (List.mem_cons_of_mem _ List.mem_cons_self)).1

theorem Block.Window.others_of_front {b : Block} {k : Nat} {L : List Nat} (h : b.Window (k :: L)) : b.Others k L := by
  obtain ⟨_, hnodup, hmem, hwheel, _⟩ := Block.window_iff.1 h
  obtain ⟨hfront, hrest⟩ := List.nodup_cons.1 hnodup
  refine ⟨hrest, hwheel.of_cons, fun i => ?_⟩
  rw [← hmem, List.mem_cons]
  constructor
  · exact fun hi => ⟨ne_of_mem_of_not_mem hi hfront, .inr hi⟩
  · exact fun ⟨hne, hi⟩ => hi.resolve_left hne

theorem Block.Window.others_of_not_live {b : Block} {k : Nat} {L : List Nat} (h : b.Window L)
    (hk : isAge (b.entry k) = false) : b.Others k L := by
  obtain ⟨_, hnodup, hmem, hwheel, _⟩ := Block.window_iff.1 h
  refine ⟨hnodup, hwheel, fun i => (hmem i).trans (and_iff_right_of_imp ?_).symm⟩
  rintro ⟨_, hlive⟩ rfl
  exact Bool.noConfusion (hk.symm.trans hlive)

theorem Block.Others.entry_eq {b b' : Block} {k : Nat} {v : Byte} {L : List Nat} (h : b.Others k L)
    (hread : ∀ i, b'.entry i = if i = k then v else b.entry i) : ∀ i ∈ L, b'.entry i = b.entry i := by
  obtain ⟨_, _, hmem⟩ := h
  exact fun i hi => (hread i).trans (if_neg ((hmem i).1 hi).1)

/-- Slot `k` is stamped with `age`, which advances: it is the newest. -/
theorem Block.Others.stamp {b b' : Block} {k : Nat} {L : List Nat} (h : b.Others k L) (hcap : b'.capacity = b.capacity)
    (hread : ∀ i, b'.entry i = if i = k then b.age else b.entry i) (hage : b'.age = nextAge b.age)
    (hk : k < b.capacity.toNat) (hlegal : isAge b.age = true) (hlen : L.length + 1 = b'.size.toNat)
    (hfront : b'.tail.toNat = L.headD k) : b'.Window (L ++ [k]) := by
  have hsame := h.entry_eq hread
  obtain ⟨hnodup, hwheel, hmem⟩ := h
  have hstamp : b'.entry k = b.age := (hread k).trans (if_pos rfl)
  have hnew : k ∉ L := fun hkL => ((hmem k).1 hkL).1 rfl
  refine Block.window_iff.2 ⟨by rw [List.length_append, List.length_singleton, hlen], ?_, fun i => ?_,
    hwheel.append hsame hstamp hage, fun i hi => ?_⟩
  · exact List.nodup_append'.2 ⟨hnodup, List.nodup_singleton k, List.disjoint_singleton.2 hnew⟩
  · rw [List.mem_append, List.mem_singleton, hmem, Block.Live, Block.Live, hcap]
    by_cases hi : i = k
    · simp [hi, hk, hstamp, hlegal]
    · simp [hi, hread]
  · rw [hfront]
    cases L with
    | nil => exact (Option.some.inj hi).symm
    | cons j L => exact (Option.some.inj hi).symm

/-- Slot `k` holds no live entry afterwards: the others are all there is. -/
theorem Block.Others.clear {b b' : Block} {k : Nat} {v : Byte} {L : List Nat} (h : b.Others k L)
    (hcap : b'.capacity = b.capacity) (hread : ∀ i, b'.entry i = if i = k then v else b.entry i) (hv : isAge v = false)
    (hage : b'.age = b.age) (hlen : L.length = b'.size.toNat) (hfront : ∀ i ∈ L.head?, i = b'.tail.toNat) : b'.Window L := by
  have hsame := h.entry_eq hread
  obtain ⟨hnodup, hwheel, hmem⟩ := h
  refine Block.window_iff.2 ⟨hlen, hnodup, fun i => ?_, hwheel.congr hsame hage, hfront⟩
  rw [hmem, Block.Live, Block.Live, hcap, hread]
  by_cases hi : i = k
  · simp [hi, hv]
  · simp [hi]

/-! ### What each effect of a command makes of the window (`45_properties.md` R152) -/

theorem Block.create_window {b : Block} (hwf : b.slots.wf = true) {c : Byte} (hc : c.toNat ≤ Config.depth) :
    (b.create c).Window [] := by
  refine Block.window_iff.2 ⟨rfl, List.nodup_nil, fun i => ⟨nofun, ?_⟩, Block.onWheel_nil _, nofun⟩
  rintro ⟨hi, hlive⟩
  rw [Block.entry_create_of_lt hwf hc hi] at hlive
  cases hlive

/-- The hit path puts the filled slot at the back, and in a drained pool the re-anchor step puts `tail` on it. -/
theorem Block.Window.fillSlot {b : Block} {L : List Nat} (hb : b.Inv) (hpool : b.initDone = true) (h : b.Window L) {k : Nat}
    (hk : k < b.capacity.toNat) (he : b.entry k = Config.empty) : (b.fillSlot true k).Window (L ++ [k]) := by
  obtain ⟨hwf, hinv⟩ := hb
  obtain ⟨⟨_, hmax, _, _, _, hage⟩, hcount, _⟩ := hinv hpool
  obtain ⟨hlen, _, _, _, hfront⟩ := Block.window_iff.1 h
  have hdead : isAge (b.entry k) = false := he ▸ rfl
  have hroom : b.liveCount < b.capacity.toNat := Block.count_lt hk hdead
  refine (h.others_of_not_live hdead).stamp rfl (Block.entry_fillSlot hwf true (hk.trans_le hmax)) rfl hk
    ((isAge_iff _).2 hage) ?_ ?_
  · rw [Block.fillSlot_size, succ_toNat _ (by omega), hlen]
  · rw [Block.fillSlot_tail]
    cases L with
    | nil =>
      have hdrained : b.size = 0 := (size_eq_zero_iff_of_length hlen).2 rfl
      rw [if_pos ⟨rfl, hdrained⟩]
      exact cursor_toNat hk
    | cons i L =>
      have hsize : b.size ≠ 0 := mt (size_eq_zero_iff_of_length hlen).1 nofun
      rw [if_neg fun hanchor => hsize hanchor.2]
      exact (hfront i rfl).symm

/-- The overwrite path moves the oldest slot to the back. -/
theorem Block.Window.restamp {b r : Block} {L : List Nat} (hb : b.Inv) (hpool : b.initDone = true)
    (h : b.Window (b.tail.toNat :: L)) (hs : b.resync = some r) : (r.restamp b.tail).Window (L ++ [b.tail.toNat]) := by
  obtain rfl := Option.some.inj ((h.resync hb hpool).symm.trans hs)
  obtain ⟨hwf, hinv⟩ := hb
  obtain ⟨⟨_, hmax, _, _, htail, hage⟩, _⟩ := hinv hpool
  obtain ⟨hlen, _⟩ := Block.window_iff.1 h
  exact h.others_of_front.stamp rfl (Block.entry_restamp (b := { b with tail := _ }) hwf (htail.trans_le hmax)) rfl htail
    ((isAge_iff _).2 hage) hlen (cursor_toNat h.headD_lt)

/-- `RESERVE` takes the oldest slot away. -/
theorem Block.Window.claim {b r : Block} {L : List Nat} (hb : b.Inv) (hpool : b.initDone = true)
    (h : b.Window (b.tail.toNat :: L)) (hs : b.resync = some r) : (r.claim b.tail).Window L := by
  obtain rfl := Option.some.inj ((h.resync hb hpool).symm.trans hs)
  obtain ⟨hwf, hinv⟩ := hb
  obtain ⟨⟨_, hmax, _, _, htail, _⟩, _⟩ := hinv hpool
  obtain ⟨hlen, _⟩ := Block.window_iff.1 h
  have hcursor : (BitVec.ofNat 8 (L.headD b.tail.toNat)).toNat = L.headD b.tail.toNat := cursor_toNat h.headD_lt
  refine h.others_of_front.clear rfl (Block.entry_claim (b := { b with tail := _ }) hwf (htail.trans_le hmax)) rfl rfl ?_ ?_
  · rw [List.length_cons] at hlen
    rw [Block.claim_size]
    bv_omega
  · intro i hi
    rw [Block.claim_tail, hcursor, List.headD_eq_head?_getD, hi, Option.getD_some]

/-- `RELEASE` clears an entry that was not live. -/
theorem Block.Window.free {b : Block} {L : List Nat} (hwf : b.slots.wf = true) (h : b.Window L) {k : Nat}
    (hd : k < Config.depth) (hr : b.entry k = Config.reserved) : (b.store k Config.empty).Window L := by
  obtain ⟨hlen, _, _, _, hfront⟩ := Block.window_iff.1 h
  exact (h.others_of_not_live (k := k) (hr ▸ rfl)).clear rfl (Block.entry_store hwf hd Config.empty) rfl rfl hlen hfront

/-! ### The commands (`45_properties.md` R152) -/

/-- Settles O39, by what each command answers and what its effect makes of the window. -/
theorem commandsKeepWindow : Obligations.CommandsKeepWindow := by
  intro i s L hsetting hinit hs hw
  obtain ⟨t, ht, _⟩ := exec_completes i hs
  have ⟨hwf, hinv⟩ := hs
  obtain ⟨⟨_, hmax, _, _, htail, _⟩, _⟩ := hinv hinit
  cases i with
  | init c =>
    obtain ⟨_, rfl⟩ | ⟨_, hc, rfl⟩ := execInit_cases ht
    · exact ⟨_, _, _, ⟨ht, rfl⟩, hw, nofun⟩
    · exact ⟨_, _, _, ⟨ht, rfl⟩, Block.create_window hwf hc, nofun⟩
  | alloc a =>
    obtain ⟨_, rfl⟩ | ⟨_, k, hf, rfl⟩ | ⟨_, _, _, rfl⟩ | ⟨_, hm, v, r, hv, hr, hres, rfl⟩ := execAlloc_cases (a := a) ht
    · exact ⟨_, _, _, ⟨ht, rfl⟩, hw, nofun⟩
    · obtain ⟨hk, _, he⟩ := Block.scan_found hf
      refine ⟨_, _, _, ⟨ht, rfl⟩, ?_, nofun⟩
      rw [State.reply_block, hsetting, cursor_toNat hk]
      exact hw.fillSlot hs hinit hk he
    · exact ⟨_, _, _, ⟨ht, rfl⟩, hw, nofun⟩
    · obtain ⟨_, _, rfl⟩ := Block.slot?_eq_some.1 hv
      obtain ⟨L, rfl⟩ := hw.eq_tail_cons ⟨htail, Block.isAge_of_findEmpty_missed hmax hm htail hr⟩
      exact ⟨_, _, _, ⟨ht, rfl⟩, hw.restamp hs hinit hres, fun _ => rfl⟩
  | reserve a =>
    obtain ⟨_, rfl⟩ | ⟨_, _, rfl⟩ | ⟨_, _, _, rfl⟩ | ⟨_, _, _, rfl⟩ | ⟨_, _, v, r, hv, hr, he, hres, rfl⟩ :=
      execReserve_cases (a := a) ht
    · exact ⟨_, _, _, ⟨ht, rfl⟩, hw, nofun⟩
    · exact ⟨_, _, _, ⟨ht, rfl⟩, hw, nofun⟩
    · exact ⟨_, _, _, ⟨ht, rfl⟩, hw, nofun⟩
    · exact ⟨_, _, _, ⟨ht, rfl⟩, hw, nofun⟩
    · obtain ⟨_, _, rfl⟩ := Block.slot?_eq_some.1 hv
      obtain ⟨L, rfl⟩ := hw.eq_tail_cons ⟨htail, isAge_of_ne he hr⟩
      exact ⟨_, _, _, ⟨ht, rfl⟩, hw.claim hs hinit hres, fun _ => rfl⟩
  | release k =>
    obtain ⟨_, rfl⟩ | ⟨_, _, hd, hr, rfl⟩ := execRelease_cases ht
    · exact ⟨_, _, _, ⟨ht, rfl⟩, hw, nofun⟩
    · exact ⟨_, _, _, ⟨ht, rfl⟩, hw.free hwf hd hr, nofun⟩

end Sys2Proof.Machine
end

section
/-! PROOFS of the statements about `43_reserve_tail.md`: the errors of `RESERVE` in the order of its checks (R126, R127), and that none
but `NoUsedSlots` is left where `TAIL_REANCHOR = 1` (R129). -/

namespace Sys2Proof.Machine

/-! ### The errors of `RESERVE` (R126, R127) -/

/-- A `Fault` response that leaves the block alone changes nothing but the responses given and the record of it
(`93_implementation_defined.md` U2). -/
theorem State.reply_same_block_fault (s : State) (k : Byte) :
    s.reply s.block .fault k = { s with outbox := s.outbox ++ [responseWord .fault k], faulted := true } := by
  simp [State.reply]

/-- Settles O26: `size` is looked at first, then the entry at `tail`, which a legal pool has. -/
theorem reserveErrorsInOrder : Obligations.ReserveErrorsInOrder := by
  intro a s hpool hd htail
  have hread := Block.slot?_of_lt htail hd
  refine ⟨fun hdrained => ?_, fun hsize hreserved => ?_, fun hsize hempty => ?_⟩
  · rw [exec_reserve_drained hpool hdrained, State.reply_same_block s (by decide)]
  · rw [exec_reserve_refused hpool hsize (hread.trans (congrArg some hreserved)), State.reply_same_block s (by decide)]
  · rw [exec_reserve_fault hpool hsize (hread.trans (congrArg some hempty)), State.reply_same_block_fault]

/-! ### `RESERVE` in a window (R129) -/

/-- A command that answers with one status answers with no other. -/
theorem exists_answers_iff {i : Instr} {s t : State} {st : Status} {k : Byte} (h : Answers i s t st k) (st' : Status) :
    (∃ t' k', Answers i s t' st' k') ↔ st' = st := by
  constructor
  · rintro ⟨t', k', hexec', hout'⟩
    obtain ⟨hexec, hout⟩ := h
    obtain rfl : t' = t := Host.Outcome.next.inj (hexec'.symm.trans hexec)
    have hword : responseWord st' k' = responseWord st k :=
      List.singleton_inj.1 (List.append_cancel_left (hout'.symm.trans hout))
    exact (responseWord_inj hword).1
  · rintro rfl
    exact ⟨t, k, h⟩

/-- In a window that counts a live slot, the slot at `tail` is live. -/
theorem Block.Window.tail_live {b : Block} {L : List Nat} (h : b.Window L) (hsize : b.size ≠ 0) : b.Live b.tail.toNat := by
  obtain ⟨hlen, _, hmem, _, hfront⟩ := Block.window_iff.1 h
  cases L with
  | nil => exact absurd ((size_eq_zero_iff_of_length hlen).2 rfl) hsize
  | cons i L => exact (hmem _).1 (hfront i rfl ▸ List.mem_cons_self)

/-- `RESERVE` takes the slot at `tail` where that one is live. -/
theorem reserve_answers_ok (a : Byte) {s : State} (hpool : s.block.initDone = true) (hd : s.block.capacity.toNat ≤ Config.depth)
    (hsize : s.block.size ≠ 0) (hlive : s.block.Live s.block.tail.toNat) :
    ∃ t, Answers (.reserve a) s t .ok s.block.tail := by
  obtain ⟨htail, hage⟩ := hlive
  obtain ⟨hempty, hreserved⟩ := ne_sentinels_of_isAge hage
  obtain ⟨_, hresync, _⟩ := Block.resync_of_legal s.block hd htail
  exact ⟨_, exec_reserve_ok hpool hsize (Block.slot?_of_lt htail hd) hreserved hempty hresync, rfl⟩

/-- Settles O45: a drained pool answers `NoUsedSlots`; in any other the window puts a live slot at `tail`, and the answer is `Ok`. -/
theorem reserveOkIffLive : Obligations.ReserveOkIffLive := by
  intro a s hsetting hpool ⟨_, hinv⟩ hordered
  by_cases hsize : s.block.size = 0
  · have hanswer : Answers (.reserve a) s _ .noUsedSlots _ := ⟨exec_reserve_drained hpool hsize, rfl⟩
    simp only [exists_answers_iff hanswer]
    simp [hsize]
  · obtain ⟨⟨_, hd, _⟩, _⟩ := hinv hpool
    obtain ⟨L, hw⟩ := hordered hsetting hpool
    obtain ⟨t, hanswer⟩ := reserve_answers_ok a hpool hd hsize (hw.tail_live hsize)
    have hpos : s.block.size.toNat ≠ 0 := fun hz => hsize (BitVec.eq_of_toNat_eq hz)
    simp only [exists_answers_iff hanswer]
    simp [hpos, Nat.pos_of_ne_zero hpos]

end Sys2Proof.Machine
end

section
/-! PROOFS of the statements about `44_release_reserved.md`: the one entry that `RELEASE` empties (R137). -/

namespace Sys2Proof.Machine

/-- Settles O27, with the slot array that `RELEASE` leaves: the entry named is one of the pool and reads `RESERVED`, so the command
stores `EMPTY` there. -/
theorem releaseEmptiesOneEntry : Obligations.ReleaseEmptiesOneEntry := by
  intro i s hwf hpool hd hi hreserved
  have hread : s.block.slot? i.toNat = some Config.reserved :=
    (Block.slot?_of_lt hi hd).trans (congrArg some hreserved)
  refine ⟨(s.block.store i.toNat Config.empty).slots, Memory.write_wf hwf _ _, ?_,
    fun k hk => Memory.read_write_other hwf _ _ hk, ?_⟩
  · exact (Block.entry_store hwf (hi.trans_le hd) _ _).trans (if_pos rfl)
  · rw [exec_release_ok hpool hread, State.reply_of_ne_fault s _ (by decide)]
    rfl

end Sys2Proof.Machine
end

section
/-! PROOFS of the statements about `45_properties.md`: the window along steps and runs (R152, R154), the age wheel and the oldest
live slot (R149, R150, R160), what `ALLOC`, `RELEASE` and `INIT` refuse (R153, R163 to R165), and how a stale tail arises (R155). -/

namespace Sys2Proof.Machine

/-! ### The window along steps and runs (R152, R154) -/

/-- A pool after a command was there before, or `INIT` has just created it. -/
theorem exec_pool_cases {i : Instr} {s t : State} (h : exec i s = .next t) (hpool : t.block.initDone = true) :
    s.block.initDone = true ∨ ∃ c, c.toNat ≤ Config.depth ∧ t.block = s.block.create c := by
  obtain hbefore | ⟨c, rfl, hmin, hmax⟩ := (initDoneSetOnlyByInit i s t h).1 hpool
  · exact .inl hbefore
  · obtain rfl := Host.Outcome.next.inj ((exec_init_ok hmin hmax).symm.trans h)
    exact .inr ⟨c, hmax, rfl⟩

theorem exec_keeps_ordered {i : Instr} {s t : State} (hs : s.block.Inv) (ho : s.Ordered) (h : exec i s = .next t) :
    t.Ordered := by
  intro hsetting hpool
  obtain ⟨_, hparam, _⟩ := exec_frame h
  have hsetting' : s.tailReanchor = true := hparam.symm.trans hsetting
  obtain hbefore | ⟨c, hc, hblock⟩ := exec_pool_cases h hpool
  · obtain ⟨L, hw⟩ := ho hsetting' hbefore
    obtain ⟨t', _, _, ⟨hexec, _⟩, hw', _⟩ := commandsKeepWindow i s L hsetting' hbefore hs hw
    obtain rfl := Host.Outcome.next.inj (hexec.symm.trans h)
    exact ⟨_, hw'⟩
  · exact ⟨[], hblock ▸ Block.create_window hs.1 hc⟩

/-- A hardware reset leaves no pool, so nothing to order. -/
theorem State.hardwareReset_ordered (s : State) : s.hardwareReset.Ordered :=
  fun _ hpool => Bool.noConfusion hpool

/-- Settles O40, by the kind of event: a command keeps the window or creates an empty one, and a reset leaves no pool. -/
theorem everyStepKeepsOrder : Obligations.EveryStepKeepsOrder := by
  intro s t hs ho h
  rw [step] at h
  rcases s.port_cases with ⟨_, hport⟩ | ⟨w, rest, _, hport⟩ | ⟨rest, _, hport⟩ | ⟨w, rest, _, hport | hport⟩ <;>
    rw [hport] at h
  · cases h; exact ho
  · exact exec_keeps_ordered (s := s.take rest) hs ho h
  · cases h; exact State.hardwareReset_ordered _
  · obtain ⟨u, _, rfl⟩ := resetAfter_next h
    exact State.hardwareReset_ordered u
  · cases h; exact State.hardwareReset_ordered _

/-- A response that names the oldest names the front, so the queue takes its step. -/
theorem queueRun_cons {i : Instr} {st : Status} {k : Byte} {L : List Nat} (rs : List (Instr × Status × Byte))
    (h : namesOldest i st = true → L.head? = some k.toNat) :
    queueRun L ((i, st, k) :: rs) = queueRun (queueAfter i st k.toNat L) rs :=
  if_neg fun hcontra => hcontra.2 (h hcontra.1)

/-- Settles O43, by induction over the commands: each keeps the premises and moves the window as the queue moves. -/
theorem runsAreFirstInFirstOut : Obligations.RunsAreFirstInFirstOut := by
  intro is
  induction is with
  | nil => exact fun s L _ _ _ hw => ⟨s, [], L, rfl, rfl, (List.append_nil _).symm, rfl, hw⟩
  | cons i is ih =>
    intro s L hsetting hpool hs hw
    obtain ⟨u, st, k, ⟨hexec, hout⟩, hwindow, hfront⟩ := commandsKeepWindow i s L hsetting hpool hs hw
    obtain ⟨_, hparam, _⟩ := exec_frame hexec
    obtain ⟨t, rs, L', hrun, hcommands, hresponses, hqueue, hlast⟩ := ih u _ (hparam.trans hsetting)
      ((initDoneSetOnlyByInit i s u hexec).2 (.inl hpool)) ((exec_effect hexec).inv hs) hwindow
    refine ⟨t, (i, st, k) :: rs, L', ?_, congrArg (i :: ·) hcommands, ?_, (queueRun_cons rs hfront).trans hqueue, hlast⟩
    · rw [execAll, hexec]
      exact hrun
    · rw [hresponses, hout, List.append_assoc]
      rfl

/-! ### The age wheel (R160) and the oldest live slot (R149, R150) -/

theorem nextAge_iterate_eq_iff {a : Byte} (ha : isAge a = true) (c : Byte) (n : Nat) :
    nextAge^[n] a = c ↔ (a.toNat - 1 + n) % 254 + 1 = c.toNat := by
  rw [← (iterate_nextAge_toNat ha n).2]
  exact BitVec.toNat_inj.symm

/-- Settles O8: `n` steps of the wheel add `n` to an age modulo 254. -/
theorem ageWheelIsOneCycle : Obligations.AgeWheelIsOneCycle := by
  intro a c ha hc
  obtain ⟨hamin, hamax⟩ := (isAge_iff a).1 ha
  obtain ⟨hcmin, hcmax⟩ := (isAge_iff c).1 hc
  refine ⟨⟨(c.toNat + 254 - a.toNat) % 254, Nat.mod_lt _ (by decide), ?_⟩, ?_, fun n hpos hlt => ?_⟩
  · rw [nextAge_iterate_eq_iff ha]
    omega
  · rw [nextAge_iterate_eq_iff ha]
    omega
  · rw [Ne, nextAge_iterate_eq_iff ha]
    omega

/-- From the oldest of a run of stamps, as many steps of the wheel as there are stamps lead to `age`. -/
theorem Block.OnWheel.iterate_entry {b : Block} {i : Nat} {L : List Nat} (h : b.OnWheel (i :: L)) :
    nextAge^[L.length + 1] (b.entry i) = b.age := by
  induction L generalizing i with
  | nil => exact ((b.onWheel_singleton i).1 h).symm
  | cons j L ih =>
    obtain ⟨hnext, hrest⟩ := (b.onWheel_cons_cons i j L).1 h
    rw [List.length_cons, Function.iterate_succ_apply, ← hnext, ih hrest]

/-- In a window that counts a live slot, `tail` is stamped `size` steps of the wheel before `age` (`45_properties.md` R150). -/
theorem Block.Window.iterate_tail {b : Block} {L : List Nat} (h : b.Window L) (hsize : b.size ≠ 0) :
    nextAge^[b.size.toNat] (b.entry b.tail.toNat) = b.age := by
  obtain ⟨L', rfl⟩ := h.eq_tail_cons (h.tail_live hsize)
  obtain ⟨hlen, _, _, hwheel, _⟩ := Block.window_iff.1 h
  rw [← hlen, List.length_cons]
  exact hwheel.iterate_entry

/-- Settles O41, by the distinct stamps of a window and the front of its list. -/
theorem tailIsLiveAndOldest : Obligations.TailIsLiveAndOldest := by
  intro b L hb hpool hw
  refine ⟨fun i hi j hj heq => hw.entry_inj hb hpool hi hj heq, fun hsize => ⟨?_, hw.iterate_tail hsize⟩⟩
  obtain ⟨_, hlive⟩ := hw.tail_live hsize
  exact hlive

/-! ### What `ALLOC` refuses (R153) and how a stale tail arises (R155) -/

theorem alloc_allSlotsReserved_cause {a k : Byte} {s t : State} (h : Answers (.alloc a) s t .allSlotsReserved k) :
    s.block.findEmpty = .missed ∧ s.block.entry s.block.tail.toNat = Config.reserved := by
  obtain ⟨hexec, hout⟩ := h
  obtain ⟨_, rfl⟩ | ⟨_, _, _, rfl⟩ | ⟨_, hmiss, hv, rfl⟩ | ⟨_, _, _, _, _, _, _, rfl⟩ := execAlloc_cases (a := a) hexec <;>
    obtain ⟨hst, _⟩ := reply_answers hout
  · cases hst
  · cases hst
  · obtain ⟨_, _, hreserved⟩ := Block.slot?_eq_some.1 hv
    exact ⟨hmiss, hreserved⟩
  · cases hst

/-- Where no live slot is counted the pool has none. -/
theorem Block.not_live_of_size_eq_zero {b : Block} (hb : b.Inv) (hpool : b.initDone = true) (hsize : b.size = 0) {i : Nat}
    (hi : i < b.capacity.toNat) : isAge (b.entry i) = false := by
  obtain ⟨_, hinv⟩ := hb
  obtain ⟨_, hcount, _⟩ := hinv hpool
  rw [hsize] at hcount
  exact Block.count_eq_zero.1 hcount.symm i hi

/-- Settles O44: in a window a `RESERVED` entry at `tail` means that no slot is live, and the missed scan that none is `EMPTY`. -/
theorem allocRefusedIffAllReserved : Obligations.AllocRefusedIffAllReserved := by
  intro a s hsetting hpool hs ho
  obtain ⟨⟨hmin, hmax, _, _, htail, _⟩, _⟩ := hs.2 hpool
  constructor
  · rintro ⟨t, k, hanswer⟩ i hi
    obtain ⟨hmiss, hreserved⟩ := alloc_allSlotsReserved_cause hanswer
    obtain ⟨L, hw⟩ := ho hsetting hpool
    have hdrained : s.block.size = 0 := by
      by_contra hsize
      obtain ⟨_, hlive⟩ := hw.tail_live hsize
      exact (ne_sentinels_of_isAge hlive).2 hreserved
    by_contra hne
    exact Bool.eq_false_iff.1 (Block.not_live_of_size_eq_zero hs hpool hdrained hi)
      (Block.isAge_of_findEmpty_missed hmax hmiss hi hne)
  · intro hall
    have hempty : ∀ i < s.block.capacity.toNat, s.block.entry i ≠ 0 := fun i hi => by
      rw [hall i hi]
      decide
    exact ⟨_, _, allocRefusedAtReservedTail a s hpool hmax htail hempty (hall _ htail), rfl⟩

/-- Only the hit path answers `Ok`, and it names the entry it fills. -/
theorem alloc_ok_block {a k : Byte} {s t : State} (h : Answers (.alloc a) s t .ok k) :
    ∃ j, s.block.findEmpty = .found j ∧ k = BitVec.ofNat 8 j ∧ t.block = s.block.fillSlot s.tailReanchor j := by
  obtain ⟨hexec, hout⟩ := h
  obtain ⟨_, rfl⟩ | ⟨_, j, hfound, rfl⟩ | ⟨_, _, _, rfl⟩ | ⟨_, _, _, _, _, _, _, rfl⟩ := execAlloc_cases (a := a) hexec <;>
    obtain ⟨hst, hk⟩ := reply_answers hout
  · cases hst
  · exact ⟨j, hfound, hk.symm, rfl⟩
  · cases hst
  · cases hst

/-- `RESERVE` answered `Ok` has taken the live slot at `tail`, after re-sync. -/
theorem reserve_ok_block {a k : Byte} {s t : State} (h : Answers (.reserve a) s t .ok k) :
    s.block.initDone = true ∧ k = s.block.tail ∧ isAge (s.block.entry s.block.tail.toNat) = true ∧
      ∃ r, s.block.resync = some r ∧ t.block = r.claim s.block.tail := by
  obtain ⟨hexec, hout⟩ := h
  obtain ⟨_, rfl⟩ | ⟨_, _, rfl⟩ | ⟨_, _, _, rfl⟩ | ⟨_, _, _, rfl⟩ | ⟨hpool, _, v, r, hv, hr, he, hres, rfl⟩ :=
    execReserve_cases (a := a) hexec <;> obtain ⟨hst, hk⟩ := reply_answers hout
  · cases hst
  · cases hst
  · cases hst
  · cases hst
  · obtain ⟨_, _, rfl⟩ := Block.slot?_eq_some.1 hv
    exact ⟨hpool, hk.symm, isAge_of_ne he hr, r, hres, rfl⟩

/-- Two entries that meet the predicate count for two. -/
theorem Block.two_le_count {b : Block} {p : Byte → Bool} {n i j : Nat} (hij : i < j) (hj : j < n)
    (hpi : p (b.entry i) = true) (hpj : p (b.entry j) = true) : 2 ≤ b.count p n := by
  induction n with
  | zero => omega
  | succ n ih =>
    rw [Block.count]
    obtain hlt | rfl := Nat.lt_succ_iff_lt_or_eq.1 hj
    · exact (ih hlt).trans (Nat.le_add_right _ _)
    · have hone : b.count p j ≠ 0 := fun hzero =>
        Bool.noConfusion ((Block.count_eq_zero.1 hzero i hij).symm.trans hpi)
      rw [hpj, Bool.toNat_true]
      omega

/-- In a pool with one live slot there is no second. -/
theorem Block.live_unique {b : Block} (hone : b.liveCount = 1) {i j : Nat} (hi : b.Live i) (hj : b.Live j) : i = j := by
  obtain ⟨hic, hil⟩ := hi
  obtain ⟨hjc, hjl⟩ := hj
  rcases Nat.lt_trichotomy i j with hlt | heq | hlt
  · have htwo : 2 ≤ b.liveCount := Block.two_le_count hlt hjc hil hjl
    omega
  · exact heq
  · have htwo : 2 ≤ b.liveCount := Block.two_le_count hlt hic hjl hil
    omega

/-- Re-sync leaves `tail` on the only live slot: an entry with the next age would be a second one. -/
theorem Block.resync_tail_of_single {b r : Block} (hb : b.Inv) (hpool : b.initDone = true) (hone : b.size.toNat = 1)
    (hlive : isAge (b.entry b.tail.toNat) = true) (hs : b.resync = some r) : r.tail = b.tail := by
  obtain ⟨_, hinv⟩ := hb
  obtain ⟨⟨_, hmax, _⟩, hcount, _⟩ := hinv hpool
  obtain ⟨htail, ⟨hlt, hnext⟩ | ⟨hstay, _⟩⟩ := Block.resync_tail hmax hs
  · have hsecond : b.Live r.tail.toNat := ⟨hlt, hnext ▸ isAge_nextAge hlive⟩
    exact BitVec.eq_of_toNat_eq (Block.live_unique (hcount.symm.trans hone) hsecond ⟨htail, hlive⟩)
  · exact hstay

/-- Settles O49: without the re-anchor step the hit path leaves `tail`, and re-sync leaves it on the only live slot. -/
theorem staleTailArises : Obligations.StaleTailArises := by
  refine ⟨fun a k s t hsetting h => ?_, fun a k s t hs hone h => ?_⟩
  · obtain ⟨j, _, _, hblock⟩ := alloc_ok_block h
    rw [hblock, Block.fillSlot_tail, hsetting, if_neg (by simp)]
  · obtain ⟨hpool, rfl, hlive, r, hres, hblock⟩ := reserve_ok_block h
    obtain ⟨_, _, hsize, _⟩ := Block.resync_frame hres
    obtain ⟨htail, _⟩ := Block.tail_named hs hpool
    obtain ⟨⟨_, hmax, _⟩, _⟩ := hs.2 hpool
    rw [hblock, Block.claim_size, Block.claim_tail, hsize]
    refine ⟨?_, Block.resync_tail_of_single hs hpool hone hlive hres, ?_⟩
    · rw [show s.block.size = 1 from BitVec.eq_of_toNat_eq hone]
      rfl
    · exact Block.entry_claim_resync hs.1 hres (htail.trans_le hmax)

/-! ### What `RELEASE` and `INIT` refuse (R163 to R165; `20_memory.md` R53) -/

/-- Settles O28, by the two checks: the index first, then the entry it names. -/
theorem releaseRefused : Obligations.ReleaseRefused := by
  intro i s hpool hd hcause
  rw [← State.reply_same_block s (by decide)]
  by_cases hi : i.toNat < s.block.capacity.toNat
  · exact exec_release_notReserved hpool (Block.slot?_of_lt hi hd) (hcause.resolve_left (Nat.not_le.2 hi))
  · exact exec_release_beyond (Nat.le_of_not_lt hi)

/-- Settles O29: the first `RELEASE` has emptied the entry, so the second reads no `RESERVED` there. -/
theorem doubleReleaseRefused : Obligations.DoubleReleaseRefused := by
  intro i k s t hwf ⟨hexec, hout⟩
  obtain ⟨_, rfl⟩ | ⟨hpool, hi, hd, _, rfl⟩ := execRelease_cases hexec
  · cases (reply_answers hout).1
  · have hempty : (s.block.store i.toNat Config.empty).entry i.toNat = Config.empty := by
      rw [Block.entry_store hwf hd, if_pos rfl]
    rw [← State.reply_same_block _ (by decide)]
    exact exec_release_notReserved hpool (Block.slot?_eq_some.2 ⟨hi, hd, hempty⟩) (by decide)

/-- Settles O18, by what `INIT` answers inside the legal capacities and outside them. -/
theorem initAcceptsExactly : Obligations.InitAcceptsExactly := by
  intro c s
  have houtside : (c = 0 ∨ c = 1 ∨ c = 254 ∨ c = 255) ↔ ¬ (2 ≤ c.toNat ∧ c.toNat ≤ 253) := by bv_omega
  rw [houtside]
  by_cases hlegal : 2 ≤ c.toNat ∧ c.toNat ≤ 253
  · have hanswer : Answers (.init c) s _ .ok _ := ⟨exec_init_ok hlegal.1 hlegal.2, rfl⟩
    simp only [exists_answers_iff hanswer]
    simp [hlegal]
  · have hanswer : Answers (.init c) s _ .badArgument _ := ⟨exec_init_refused (by omega), rfl⟩
    simp only [exists_answers_iff hanswer]
    simp [hlegal]

end Sys2Proof.Machine
end

section
/-! PROOFS of the statements about `45_properties.md`, the runs that fill a new pool (R146) and then evict from it, oldest
first (R147). -/

namespace Sys2Proof.Machine

/-! ### Runs of one command -/

theorem execAll_append {is js : List Instr} {s t : State} (h : execAll is s = .next t) :
    execAll (is ++ js) s = execAll js t := by
  induction is generalizing s with
  | nil => rw [Host.Outcome.next.inj h, List.nil_append]
  | cons i is ih =>
    cases hexec : exec i s with
    | next u =>
      rw [execAll, hexec] at h
      rw [List.cons_append, execAll, hexec]
      exact ih h
    | fault r =>
      rw [execAll, hexec] at h
      cases h
    | refused r =>
      rw [execAll, hexec] at h
      cases h

/-- One more command of the same kind at the end of a run. -/
theorem execAll_replicate_succ {is : List Instr} {i : Instr} {n : Nat} {s t u : State}
    (hrun : execAll (is ++ List.replicate n i) s = .next t) (hexec : exec i t = .next u) :
    execAll (is ++ List.replicate (n + 1) i) s = .next u := by
  rw [List.replicate_succ', ← List.append_assoc, execAll_append hrun, execAll, hexec]
  rfl

/-! ### Filling a new pool (R146) -/

/-- The pool of `c` slots whose first `n` have been filled in order and whose others are `EMPTY`: what `INIT c` and `n` times
`ALLOC` leave (`execAll_fill`). -/
structure Block.Filled (c : Byte) (n : Nat) (b : Block) : Prop where
  inv : b.Inv
  pool : b.initDone = true
  capacity : b.capacity = c
  window : b.Window (List.range n)
  head : b.head.toNat = n % c.toNat
  tail : b.tail = 0
  age : b.age.toNat = n + 1
  stamped : ∀ i < n, (b.entry i).toNat = i + 1
  empty : ∀ i, n ≤ i → i < c.toNat → b.entry i = 0

theorem Block.Filled.size {c : Byte} {n : Nat} {b : Block} (h : b.Filled c n) : b.size.toNat = n := by
  obtain ⟨hlen, _⟩ := Block.window_iff.1 h.window
  rw [← hlen, List.length_range]

theorem Block.create_filled {b : Block} (hwf : b.slots.wf = true) {c : Byte} (hmin : 2 ≤ c.toNat) (hmax : c.toNat ≤ 253) :
    (b.create c).Filled c 0 where
  inv := Block.create_inv hwf hmin hmax
  pool := rfl
  capacity := rfl
  window := Block.create_window hwf hmax
  head := (Nat.zero_mod _).symm
  tail := rfl
  age := rfl
  stamped _ hi := absurd hi (Nat.not_lt_zero _)
  empty _ _ hi := Block.entry_create_of_lt hwf hmax hi

/-- `head` is at the first `EMPTY` entry, so the scan needs one probe. -/
theorem Block.Filled.findEmpty {c : Byte} {n : Nat} {b : Block} (h : b.Filled c n) (hn : n < c.toNat) :
    b.findEmpty = .found n := by
  obtain ⟨⟨_, hmax, _⟩, _⟩ := h.inv.2 h.pool
  have hprobe : idxAdd b.capacity b.head.toNat 0 = n := by
    rw [h.head, h.capacity, Nat.mod_eq_of_lt hn, idxAdd_zero hn]
  have hfound := Block.findEmpty_of_first hmax (j := 0) (by omega) (hprobe.symm ▸ h.empty n (Nat.le_refl n) hn) nofun
  rwa [hprobe] at hfound

/-- The re-anchor step has nothing to move: `tail` is 0, where a drained pool is filled first. -/
theorem Block.Filled.anchored {c : Byte} {n : Nat} {b : Block} (h : b.Filled c n) (hsize : b.size = 0) : n = b.tail.toNat := by
  rw [← h.size, hsize, h.tail]

theorem Block.Filled.fillSlot {c : Byte} {n : Nat} {b : Block} (h : b.Filled c n) (hn : n < c.toNat) (ta : Bool) :
    (b.fillSlot ta n).Filled c (n + 1) := by
  have ⟨hwf, hinv⟩ := h.inv
  obtain ⟨⟨_, hmax, _⟩, _⟩ := hinv h.pool
  have hk : n < b.capacity.toNat := h.capacity.symm ▸ hn
  have hempty : b.entry n = Config.empty := h.empty n (Nat.le_refl n) hn
  have hread := Block.entry_fillSlot hwf ta (hk.trans_le hmax)
  refine ⟨Block.fillSlot_inv h.inv h.pool ta hk hempty, h.pool, h.capacity, ?_, ?_, ?_, ?_, fun i hi => ?_,
    fun i hle hlt => ?_⟩
  · rw [Block.fillSlot_setting h.anchored ta true, List.range_succ]
    exact h.window.fillSlot h.inv h.pool hk hempty
  · have hfit : (BitVec.ofNat 8 n).toNat = n := cursor_toNat hk
    rw [Block.fillSlot_head, nextIdx_toNat _ _ (hfit.symm ▸ hk), hfit, h.capacity]
  · rw [Block.fillSlot_tail_of_anchored h.anchored, h.tail]
  · have hcap : c.toNat ≤ 253 := h.capacity ▸ hmax
    have hage := h.age
    rw [Block.fillSlot_age, nextAge_toNat _ (by omega) (by omega), if_neg (by omega), h.age]
  · rw [hread]
    split
    · next heq => rw [h.age, heq]
    · next hne => exact h.stamped i (by omega)
  · rw [hread, if_neg (by omega)]
    exact h.empty i (by omega) hlt

/-- `ALLOC` in a pool filled up to `n` answers `Ok(n)` and fills slot `n`. -/
theorem Block.Filled.exec_alloc {c : Byte} {n : Nat} {s : State} (h : s.block.Filled c n) (hn : n < c.toNat) (a : Byte) :
    ∃ t, Answers (.alloc a) s t .ok (BitVec.ofNat 8 n) ∧ t.block.Filled c (n + 1) :=
  ⟨_, ⟨exec_alloc_hit h.pool (h.findEmpty hn), rfl⟩, h.fillSlot hn s.tailReanchor⟩

/-- `INIT c` and then `n ≤ c` times `ALLOC` fill the first `n` slots, with the responses `Ok(0)` to `Ok(n - 1)`. -/
theorem execAll_fill {c : Byte} {s : State} (hwf : s.block.slots.wf = true) (hmin : 2 ≤ c.toNat) (hmax : c.toNat ≤ 253)
    {n : Nat} (hn : n ≤ c.toNat) :
    ∃ t, execAll ([.init c] ++ List.replicate n (.alloc 0)) s = .next t ∧
      t.outbox = s.outbox ++ responseWord .ok 0xFF :: (List.range n).map (fun k => responseWord .ok (BitVec.ofNat 8 k)) ∧
      t.block.Filled c n := by
  induction n with
  | zero =>
    refine ⟨s.reply (s.block.create c) .ok Config.noIndex, ?_, rfl, Block.create_filled hwf hmin hmax⟩
    rw [List.replicate_zero, List.append_nil, execAll, exec_init_ok hmin hmax]
    rfl
  | succ n ih =>
    obtain ⟨t, hrun, hout, hfilled⟩ := ih (Nat.le_of_succ_le hn)
    obtain ⟨u, ⟨hexec, hout'⟩, hfilled'⟩ := hfilled.exec_alloc hn 0
    refine ⟨u, execAll_replicate_succ hrun hexec, ?_, hfilled'⟩
    rw [hout', hout, List.range_succ, List.map_append, List.append_assoc, List.cons_append, List.map_singleton]

/-- Settles O51, by induction over the `ALLOC`s: each finds slot `n` `EMPTY` at `head`. -/
theorem fillReturnsIndicesInOrder : Obligations.FillReturnsIndicesInOrder := by
  intro c n s hwf hmin hmax hn
  obtain ⟨t, hrun, hout, h⟩ := execAll_fill hwf hmin hmax hn
  exact ⟨t, hrun, hout, h.capacity, h.size, h.head, h.tail, h.age, h.stamped, h.empty⟩

/-! ### Eviction from a full pool (R147) -/

/-- The full pool of `c` live slots after `k` evictions since it was filled in order: the window has turned by `k`
(`execAll_turn`). -/
structure Block.Turned (c : Byte) (k : Nat) (b : Block) : Prop where
  inv : b.Inv
  pool : b.initDone = true
  capacity : b.capacity = c
  size : b.size = c
  window : b.Window ((List.range c.toNat).rotate k)
  age : b.age = nextAge^[k] (BitVec.ofNat 8 (c.toNat + 1))

theorem Block.Filled.turned {c : Byte} {b : Block} (h : b.Filled c c.toNat) : b.Turned c 0 where
  inv := h.inv
  pool := h.pool
  capacity := h.capacity
  size := BitVec.eq_of_toNat_eq h.size
  window := by
    rw [List.rotate_zero]
    exact h.window
  age := by
    rw [Function.iterate_zero_apply, ← h.age, BitVec.ofNat_toNat, BitVec.setWidth_eq]

theorem Block.Turned.live {c : Byte} {k : Nat} {b : Block} (h : b.Turned c k) {i : Nat} (hi : i < b.capacity.toNat) :
    b.Live i := by
  obtain ⟨_, _, hmem, _⟩ := Block.window_iff.1 h.window
  rw [← hmem, List.mem_rotate, List.mem_range, ← h.capacity]
  exact hi

theorem Block.Turned.tail_lt {c : Byte} {k : Nat} {b : Block} (h : b.Turned c k) : b.tail.toNat < b.capacity.toNat := by
  obtain ⟨htail, _⟩ := Block.tail_named h.inv h.pool
  exact htail

theorem Block.Turned.tail_toNat {c : Byte} {k : Nat} {b : Block} (h : b.Turned c k) : b.tail.toNat = k % c.toNat := by
  obtain ⟨_, _, _, _, hfront⟩ := Block.window_iff.1 h.window
  have hpos : 0 < c.toNat := Nat.zero_lt_of_lt (h.capacity ▸ h.tail_lt)
  have hlt : k % c.toNat < (List.range c.toNat).length := by
    rw [List.length_range]
    exact Nat.mod_lt k hpos
  refine (hfront _ ?_).symm
  rw [← List.rotate_mod, List.length_range, List.head?_rotate hlt, List.getElem?_range (Nat.mod_lt k hpos)]
  rfl

/-- No slot is `EMPTY`, and the one at `tail` is live: `ALLOC` overwrites it, and the window turns by one. -/
theorem Block.Turned.exec_alloc {c : Byte} {k : Nat} {s : State} (h : s.block.Turned c k) (a : Byte) :
    ∃ t, Answers (.alloc a) s t .okOverwritten s.block.tail ∧ t.block.head = s.block.tail ∧
      t.block.entry s.block.tail.toNat = s.block.age ∧ t.block.Turned c (k + 1) := by
  have ⟨hwf, hinv⟩ := h.inv
  obtain ⟨⟨_, hmax, _⟩, _⟩ := hinv h.pool
  have htail := h.tail_lt
  obtain ⟨_, hlive⟩ := h.live htail
  have hmiss : s.block.findEmpty = .missed := Block.findEmpty_missed (Nat.zero_lt_of_lt htail) hmax fun i hi =>
    (ne_sentinels_of_isAge (h.live hi).2).1
  have hreserved := (ne_sentinels_of_isAge hlive).2
  obtain ⟨r, hres⟩ := Block.resync_isSome s.block htail hmax
  obtain ⟨hinit, hcap, hsize, _, hage, _⟩ := Block.resync_frame hres
  obtain ⟨L, hL⟩ := h.window.eq_tail_cons ⟨htail, hlive⟩
  refine ⟨_, ⟨exec_alloc_overwrite h.pool hmiss (Block.slot?_of_lt htail hmax) hreserved hres, rfl⟩, rfl,
    Block.entry_restamp_resync hwf hres (htail.trans_le hmax), ?_, hinit.trans h.pool, hcap.trans h.capacity,
    hsize.trans h.size, ?_, ?_⟩
  · exact Block.restamp_inv (Block.resync_inv h.inv h.pool hres) (hinit.trans h.pool) (hcap.symm ▸ htail)
      (Block.entry_resync hres _ ▸ hlive)
  · rw [← List.rotate_rotate, hL, List.rotate_cons_succ, List.rotate_zero]
    exact Block.Window.restamp h.inv h.pool (hL ▸ h.window) hres
  · rw [Function.iterate_succ_apply', ← h.age, ← hage]
    rfl

/-- `INIT c`, `c` times `ALLOC` and then `k` times more turn the window of the full pool by `k`. -/
theorem execAll_turn {c : Byte} {s : State} (hwf : s.block.slots.wf = true) (hmin : 2 ≤ c.toNat) (hmax : c.toNat ≤ 253)
    (k : Nat) :
    ∃ t, execAll ([.init c] ++ List.replicate (c.toNat + k) (.alloc 0)) s = .next t ∧ t.block.Turned c k := by
  induction k with
  | zero =>
    obtain ⟨t, hrun, _, hfilled⟩ := execAll_fill hwf hmin hmax (Nat.le_refl c.toNat)
    exact ⟨t, hrun, hfilled.turned⟩
  | succ k ih =>
    obtain ⟨t, hrun, hturned⟩ := ih
    obtain ⟨u, ⟨hexec, _⟩, _, _, hturned'⟩ := hturned.exec_alloc 0
    exact ⟨u, execAll_replicate_succ hrun hexec, hturned'⟩

/-- Settles O52, by induction over the evictions: the front of the window that has turned by `k - 1` is slot `(k - 1) mod C`. -/
theorem evictionIsOldestFirst : Obligations.EvictionIsOldestFirst := by
  intro c k s hwf hmin hmax hk
  obtain ⟨j, rfl⟩ := Nat.exists_eq_add_of_le' hk
  obtain ⟨u, hrun, hu⟩ := execAll_turn hwf hmin hmax j
  obtain ⟨t, hanswer, hhead, hstamp, ht⟩ := hu.exec_alloc 0
  have htail := hu.tail_toNat
  refine ⟨u, t, hrun, ?_, ?_, ht.tail_toNat, ht.size, fun hfirst => ?_⟩
  · rw [Nat.add_sub_cancel, ← htail, BitVec.ofNat_toNat, BitVec.setWidth_eq]
    exact hanswer
  · rw [hhead, Nat.add_sub_cancel, htail]
  · obtain rfl : j = 0 := Nat.succ.inj hfirst
    rw [Nat.zero_mod] at htail
    have hfit : (BitVec.ofNat 8 (c.toNat + 1)).toNat = c.toNat + 1 := operand_toNat (by omega)
    rw [htail, hu.age] at hstamp
    exact ⟨hstamp ▸ hfit, ht.age⟩

end Sys2Proof.Machine
end

section
/-! PROOFS of the statements about `60_exceptions.md`: every command answers with the status whose cause holds (R171), errors change
nothing and successes do (R177), every step ends in a next state (R186), and the record of a `Fault` response, which is never cleared
and with `TAIL_REANCHOR = 1` never made (R175; `93_implementation_defined.md` U2). -/

namespace Sys2Proof.Machine

/-! ### What a command answers, and why (R171, R177) -/

/-- Where the `EMPTY` scan misses in a pool of the invariant, no entry of the pool is `EMPTY`. -/
theorem Block.Inv.entry_ne_empty {b : Block} (hb : b.Inv) (hpool : b.initDone = true) (hm : b.findEmpty = .missed) :
    ∀ k < b.capacity.toNat, b.entry k ≠ 0 := by
  obtain ⟨⟨hmin, hmax, _⟩, _⟩ := hb.2 hpool
  exact (Block.scan_missed (by omega) hmax).1 hm

theorem toNat_pos_iff_ne_zero {v : Byte} : 0 < v.toNat ↔ v ≠ 0 := by
  bv_omega

/-- The response of a command: an error names no index and leaves the block, and in a state of the invariant the cause of the status
holds. -/
theorem exec_response {i : Instr} {s t : State} (h : exec i s = .next t) :
    ∃ b st k, t = s.reply b st k ∧ (isError st = true → b = s.block ∧ k = Config.noIndex) ∧
      (s.block.Inv → StatusCause s.block i st) := by
  cases i with
  | init c =>
    obtain ⟨hc, rfl⟩ | ⟨hmin, hmax, rfl⟩ := execInit_cases h
    · exact ⟨_, _, _, rfl, fun _ => ⟨rfl, rfl⟩, fun _ => hc⟩
    · exact ⟨_, _, _, rfl, nofun, fun _ => ⟨hmin, hmax⟩⟩
  | alloc a =>
    obtain ⟨hpool, rfl⟩ | ⟨hpool, k, hf, rfl⟩ | ⟨hpool, hm, hv, rfl⟩ | ⟨hpool, hm, v, r, hv, hr, _, rfl⟩ :=
      execAlloc_cases (a := a) h
    · exact ⟨_, _, _, rfl, fun _ => ⟨rfl, rfl⟩, fun _ => hpool⟩
    · obtain ⟨hk, _, he⟩ := Block.scan_found hf
      exact ⟨_, _, _, rfl, nofun, fun _ => ⟨hpool, k, hk, he⟩⟩
    · obtain ⟨_, _, hreserved⟩ := Block.slot?_eq_some.1 hv
      exact ⟨_, _, _, rfl, fun _ => ⟨rfl, rfl⟩, fun hs => ⟨hpool, hs.entry_ne_empty hpool hm, hreserved⟩⟩
    · obtain ⟨ht, _, rfl⟩ := Block.slot?_eq_some.1 hv
      refine ⟨_, _, _, rfl, nofun, fun hs => ?_⟩
      have hfull := hs.entry_ne_empty hpool hm
      exact ⟨hpool, hfull, isAge_of_ne (hfull _ ht) hr⟩
  | reserve a =>
    obtain ⟨hpool, rfl⟩ | ⟨hpool, hz, rfl⟩ | ⟨hpool, hz, hv, rfl⟩ | ⟨hpool, hz, hv, rfl⟩ |
      ⟨hpool, hz, v, r, hv, hr, he, _, rfl⟩ := execReserve_cases (a := a) h
    · exact ⟨_, _, _, rfl, fun _ => ⟨rfl, rfl⟩, fun _ => hpool⟩
    · exact ⟨_, _, _, rfl, fun _ => ⟨rfl, rfl⟩, fun _ => ⟨hpool, hz⟩⟩
    · obtain ⟨_, _, hreserved⟩ := Block.slot?_eq_some.1 hv
      exact ⟨_, _, _, rfl, fun _ => ⟨rfl, rfl⟩, fun _ => ⟨hpool, toNat_pos_iff_ne_zero.2 hz, hreserved⟩⟩
    · obtain ⟨_, _, hempty⟩ := Block.slot?_eq_some.1 hv
      exact ⟨_, _, _, rfl, fun _ => ⟨rfl, rfl⟩, fun _ => ⟨hpool, toNat_pos_iff_ne_zero.2 hz, hempty⟩⟩
    · obtain ⟨_, _, rfl⟩ := Block.slot?_eq_some.1 hv
      exact ⟨_, _, _, rfl, nofun, fun _ => ⟨hpool, toNat_pos_iff_ne_zero.2 hz, isAge_of_ne he hr⟩⟩
  | release j =>
    obtain ⟨hcause, rfl⟩ | ⟨hpool, hj, _, hr, rfl⟩ := execRelease_cases h
    · exact ⟨_, _, _, rfl, fun _ => ⟨rfl, rfl⟩, fun _ => hcause⟩
    · exact ⟨_, _, _, rfl, nofun, fun _ => ⟨hpool, hj, hr⟩⟩

/-- An error leaves the block as it was (R177); this needs no invariant. -/
theorem block_eq_of_error {i : Instr} {s t : State} {st : Status} {k : Byte} (h : Answers i s t st k)
    (herr : isError st = true) : t.block = s.block := by
  obtain ⟨hexec, hout⟩ := h
  obtain ⟨b, _, _, rfl, hframe, _⟩ := exec_response hexec
  obtain ⟨rfl, rfl⟩ := reply_answers hout
  obtain ⟨hblock, _⟩ := hframe herr
  exact hblock

/-- In a state of the invariant the cause of the status answered holds. -/
theorem statusCause_of_answers {i : Instr} {s t : State} {st : Status} {k : Byte} (hs : s.block.Inv) (h : Answers i s t st k) :
    StatusCause s.block i st := by
  obtain ⟨hexec, hout⟩ := h
  obtain ⟨b, _, _, rfl, _, hcause⟩ := exec_response hexec
  obtain ⟨rfl, rfl⟩ := reply_answers hout
  exact hcause hs

/-! ### The causes exclude each other (R171) -/

/-- The only status whose cause can hold for a command, found by checks in the order of the pseudocode (`statusFor_of_cause`). -/
def Block.statusFor (b : Block) : Instr → Status
  | .init c => if 2 ≤ c.toNat ∧ c.toNat ≤ 253 then .ok else .badArgument
  | .alloc _ =>
    if b.initDone = false then .badArgument
    else if ∃ k < b.capacity.toNat, b.entry k = 0 then .ok
    else if b.entry b.tail.toNat = 255 then .allSlotsReserved
    else .okOverwritten
  | .reserve _ =>
    if b.initDone = false then .badArgument
    else if b.size = 0 then .noUsedSlots
    else if b.entry b.tail.toNat = 255 then .allSlotsReserved
    else if b.entry b.tail.toNat = 0 then .fault
    else .ok
  | .release i => if b.initDone = true ∧ i.toNat < b.capacity.toNat ∧ b.entry i.toNat = 255 then .ok else .badArgument

theorem statusFor_init_of_cause {b : Block} {c : Byte} {st : Status} (h : StatusCause b (.init c) st) :
    st = b.statusFor (.init c) := by
  cases st with
  | ok => exact (if_pos h).symm
  | badArgument =>
    have hrange : c.toNat < 2 ∨ 253 < c.toNat := h
    exact (if_neg (by omega)).symm
  | _ => exact h.elim

theorem statusFor_alloc_of_cause {b : Block} {a : Byte} {st : Status} (h : StatusCause b (.alloc a) st) :
    st = b.statusFor (.alloc a) := by
  cases st with
  | ok =>
    obtain ⟨hpool, hempty⟩ := h
    rw [Block.statusFor, if_neg (by simp [hpool]), if_pos hempty]
  | okOverwritten =>
    obtain ⟨hpool, hfull, hage⟩ := h
    obtain ⟨_, hreserved⟩ := ne_sentinels_of_isAge hage
    rw [Block.statusFor, if_neg (by simp [hpool]), if_neg (by simpa using hfull), if_neg hreserved]
  | badArgument => exact (if_pos h).symm
  | allSlotsReserved =>
    obtain ⟨hpool, hfull, hreserved⟩ := h
    rw [Block.statusFor, if_neg (by simp [hpool]), if_neg (by simpa using hfull), if_pos hreserved]
  | _ => exact h.elim

theorem statusFor_reserve_of_cause {b : Block} {a : Byte} {st : Status} (h : StatusCause b (.reserve a) st) :
    st = b.statusFor (.reserve a) := by
  cases st with
  | ok =>
    obtain ⟨hpool, hsize, hage⟩ := h
    obtain ⟨hempty, hreserved⟩ := ne_sentinels_of_isAge hage
    rw [Block.statusFor, if_neg (by simp [hpool]), if_neg (toNat_pos_iff_ne_zero.1 hsize), if_neg hreserved, if_neg hempty]
  | badArgument => exact (if_pos h).symm
  | noUsedSlots =>
    obtain ⟨hpool, hsize⟩ := h
    rw [Block.statusFor, if_neg (by simp [hpool]), if_pos hsize]
  | allSlotsReserved =>
    obtain ⟨hpool, hsize, hreserved⟩ := h
    rw [Block.statusFor, if_neg (by simp [hpool]), if_neg (toNat_pos_iff_ne_zero.1 hsize), if_pos hreserved]
  | fault =>
    obtain ⟨hpool, hsize, hempty⟩ := h
    rw [Block.statusFor, if_neg (by simp [hpool]), if_neg (toNat_pos_iff_ne_zero.1 hsize), if_neg (by simp [hempty]),
      if_pos hempty]
  | okOverwritten => exact h.elim

theorem statusFor_release_of_cause {b : Block} {i : Byte} {st : Status} (h : StatusCause b (.release i) st) :
    st = b.statusFor (.release i) := by
  cases st with
  | ok => exact (if_pos h).symm
  | badArgument =>
    rw [Block.statusFor, if_neg]
    rintro ⟨hpool, hi, hreserved⟩
    obtain hno | hbeyond | hother := h
    · exact Bool.noConfusion (hno.symm.trans hpool)
    · exact absurd hi (Nat.not_lt.2 hbeyond)
    · exact hother hreserved
  | _ => exact h.elim

/-- One status at most has a cause that holds. -/
theorem statusFor_of_cause {b : Block} {i : Instr} {st : Status} (h : StatusCause b i st) : st = b.statusFor i := by
  cases i with
  | init c => exact statusFor_init_of_cause h
  | alloc a => exact statusFor_alloc_of_cause h
  | reserve a => exact statusFor_reserve_of_cause h
  | release i => exact statusFor_release_of_cause h

/-- Settles O31, by the response that every command gives under the invariant, and by the one status whose cause can hold. -/
theorem statusTable : Obligations.StatusTable := by
  refine ⟨fun i s hs => ?_, fun i b st st' h h' => (statusFor_of_cause h).trans (statusFor_of_cause h').symm, rfl⟩
  obtain ⟨t, hexec, _⟩ := exec_completes i hs
  obtain ⟨b, st, k, rfl, hframe, hcause⟩ := exec_response hexec
  refine ⟨_, st, k, ⟨hexec, rfl⟩, hcause hs, fun herr => ?_⟩
  obtain ⟨_, hindex⟩ := hframe herr
  exact hindex

/-! ### What a success changes (R177) -/

theorem ok_or_okOverwritten_of_success {st : Status} (h : isError st = false) : st = .ok ∨ st = .okOverwritten := by
  cases st with
  | ok => exact .inl rfl
  | okOverwritten => exact .inr rfl
  | _ => cases h

/-- Emptying the first `c` entries changes the slot array unless they were all `EMPTY`. -/
theorem Block.create_slots_eq_iff {b : Block} (hwf : b.slots.wf = true) {c : Byte} (hc : c.toNat ≤ Config.depth) :
    (b.create c).slots = b.slots ↔ ∀ i < c.toNat, b.entry i = 0 := by
  constructor
  · intro h i hi
    exact (congrArg (Memory.read · i) h).symm.trans (Block.entry_create_of_lt hwf hc hi)
  · intro hempty
    refine Memory.ext_read (Memory.fill_wf hwf _ _) hwf fun i => (Block.entry_create hwf hc i).trans ?_
    split
    · next hi => exact (hempty i hi).symm
    · rfl

/-- The pool that `INIT c` creates is the one it found exactly where that one was fresh, with capacity `c`. -/
theorem Block.create_eq_self_iff {b : Block} (hwf : b.slots.wf = true) {c : Byte} (hc : c.toNat ≤ Config.depth) :
    b.create c = b ↔ b.initDone = true ∧ b.capacity = c ∧ b.size = 0 ∧ b.head = 0 ∧ b.tail = 0 ∧ b.age = 1 ∧
      ∀ i < c.toNat, b.entry i = 0 := by
  rw [← Block.create_slots_eq_iff hwf hc]
  obtain ⟨initDone, capacity, size, head, tail, age, slots⟩ := b
  simp only [Block.create, Block.mk.injEq, eq_comm]

/-- `INIT` answered with a success has created its pool. -/
theorem init_success_block {c k : Byte} {s t : State} {st : Status} (hs : s.block.Inv) (h : Answers (.init c) s t st k)
    (hst : isError st = false) : c.toNat ≤ 253 ∧ t.block = s.block.create c := by
  obtain rfl | rfl := ok_or_okOverwritten_of_success hst
  · have ⟨hexec, _⟩ := h
    obtain ⟨hmin, hmax⟩ := statusCause_of_answers hs h
    obtain rfl := Host.Outcome.next.inj ((exec_init_ok hmin hmax).symm.trans hexec)
    exact ⟨hmax, rfl⟩
  · exact (statusCause_of_answers hs h).elim

theorem alloc_success_age {a k : Byte} {s t : State} {st : Status} (hs : s.block.Inv) (h : Answers (.alloc a) s t st k)
    (hst : isError st = false) : s.block.initDone = true ∧ t.block.age = nextAge s.block.age := by
  obtain rfl | rfl := ok_or_okOverwritten_of_success hst
  · obtain ⟨hpool, _⟩ := statusCause_of_answers hs h
    obtain ⟨_, _, _, hblock⟩ := alloc_ok_block h
    exact ⟨hpool, by rw [hblock, Block.fillSlot_age]⟩
  · obtain ⟨hpool, _⟩ := statusCause_of_answers hs h
    obtain ⟨_, _, hresync, hblock⟩ := alloc_okOverwritten_block h
    obtain ⟨_, _, _, _, hage, _⟩ := Block.resync_frame hresync
    exact ⟨hpool, by rw [hblock, Block.restamp_age, hage]⟩

theorem reserve_success_size {a k : Byte} {s t : State} {st : Status} (hs : s.block.Inv) (h : Answers (.reserve a) s t st k)
    (hst : isError st = false) : t.block.size = s.block.size - 1 := by
  obtain rfl | rfl := ok_or_okOverwritten_of_success hst
  · obtain ⟨_, _, _, _, hresync, hblock⟩ := reserve_ok_block h
    obtain ⟨_, _, hsize, _⟩ := Block.resync_frame hresync
    rw [hblock, Block.claim_size, hsize]
  · exact (statusCause_of_answers hs h).elim

theorem release_success_entry {i k : Byte} {s t : State} {st : Status} (hs : s.block.Inv) (h : Answers (.release i) s t st k)
    (hst : isError st = false) : s.block.entry i.toNat = Config.reserved ∧ t.block.entry i.toNat = Config.empty := by
  obtain rfl | rfl := ok_or_okOverwritten_of_success hst
  · have ⟨hexec, _⟩ := h
    obtain ⟨hpool, hi, hreserved⟩ := statusCause_of_answers hs h
    obtain ⟨⟨_, hmax, _⟩, _⟩ := hs.2 hpool
    have hread := (Block.slot?_of_lt hi hmax).trans (congrArg some hreserved)
    obtain rfl := Host.Outcome.next.inj ((exec_release_ok hpool hread).symm.trans hexec)
    exact ⟨hreserved, (Block.entry_store hs.1 (hi.trans_le hmax) _ _).trans (if_pos rfl)⟩
  · exact (statusCause_of_answers hs h).elim

/-- Settles O30: the error half by what every response leaves, the success half by what each command writes. -/
theorem errorsChangeNothing : Obligations.ErrorsChangeNothing := by
  intro i s t st k h
  refine ⟨block_eq_of_error h, fun hst hs => ?_⟩
  cases i with
  | init c =>
    obtain ⟨hmax, hblock⟩ := init_success_block hs h hst
    exact hblock ▸ Block.create_eq_self_iff hs.1 hmax
  | alloc a =>
    obtain ⟨hpool, hage⟩ := alloc_success_age hs h hst
    obtain ⟨⟨_, _, _, _, _, hmin, hmax⟩, _⟩ := hs.2 hpool
    exact hage ▸ nextAge_ne_self _ hmin hmax
  | reserve a =>
    have hsize := reserve_success_size hs h hst
    show t.block.size ≠ s.block.size
    bv_omega
  | release j =>
    obtain ⟨hbefore, hafter⟩ := release_success_entry hs h hst
    show t.block.entry j.toNat ≠ s.block.entry j.toNat
    rw [hbefore, hafter]
    decide

/-! ### Every step ends in a next state (R186) -/

/-- Settles O38, by the kind of event: a command completes, and a reset always does. -/
theorem everyStepAnswers : Obligations.EveryStepAnswers := by
  intro s hs
  rw [step]
  rcases s.port_cases with ⟨_, hport⟩ | ⟨w, rest, _, hport⟩ | ⟨rest, _, hport⟩ | ⟨w, rest, _, hport | hport⟩ <;> rw [hport]
  · exact ⟨_, rfl⟩
  · obtain ⟨t, hexec, _⟩ := exec_completes (decode w) (s := s.take rest) hs
    exact ⟨t, hexec⟩
  · exact ⟨_, rfl⟩
  · obtain ⟨t, hexec, _⟩ := exec_completes (decode w) (s := (s.take rest).drawn) hs
    exact ⟨t.hardwareReset, by rw [hexec, resetAfter]⟩
  · exact ⟨_, rfl⟩

/-! ### The record of a `Fault` response (R175; `93_implementation_defined.md` U2) -/

/-- A command puts a `Fault` response on record and nothing else. -/
theorem faulted_iff_of_answers {i : Instr} {s t : State} {st : Status} {k : Byte} (h : Answers i s t st k) :
    t.faulted = true ↔ s.faulted = true ∨ st = .fault := by
  obtain ⟨hexec, hout⟩ := h
  obtain ⟨b, _, _, rfl⟩ := exec_reply hexec
  obtain ⟨rfl, rfl⟩ := reply_answers hout
  simp

/-- A step leaves the record, or does to it what a command answered at the same block does: events other than commands, resets
among them, have no part in it. -/
theorem step_faulted_cases {s t : State} (h : step s = .next t) :
    t.faulted = s.faulted ∨
      ∃ i u v st k, Answers i u v st k ∧ u.block = s.block ∧ u.faulted = s.faulted ∧ t.faulted = v.faulted := by
  rw [step] at h
  rcases s.port_cases with ⟨_, hport⟩ | ⟨w, rest, _, hport⟩ | ⟨rest, _, hport⟩ | ⟨w, rest, _, hport | hport⟩ <;>
    rw [hport] at h
  · cases h; exact .inl rfl
  · obtain ⟨_, _, _, rfl⟩ := exec_reply h
    exact .inr ⟨_, _, _, _, _, ⟨h, rfl⟩, rfl, rfl, rfl⟩
  · cases h; exact .inl rfl
  · obtain ⟨u, hexec, rfl⟩ := resetAfter_next h
    obtain ⟨_, _, _, rfl⟩ := exec_reply hexec
    exact .inr ⟨_, _, _, _, _, ⟨hexec, rfl⟩, rfl, rfl, rfl⟩
  · cases h; exact .inl rfl

/-- Settles O47, by what a step and a command do to the record. -/
theorem faultRecordIsSticky : Obligations.FaultRecordIsSticky := by
  refine ⟨fun s t hs h => ?_, fun i s t st k h => faulted_iff_of_answers h⟩
  obtain heq | ⟨i, u, v, st, k, hanswer, _, hbefore, hafter⟩ := step_faulted_cases h
  · exact heq.trans hs
  · exact hafter.trans ((faulted_iff_of_answers hanswer).2 (.inl (hbefore.trans hs)))

/-- In a window the cause of a `Fault` response, a counted live slot and an `EMPTY` entry at `tail`, does not arise. -/
theorem Block.Window.not_fault_cause {b : Block} {L : List Nat} (h : b.Window L) (i : Instr) : ¬ StatusCause b i .fault := by
  cases i with
  | init c => exact id
  | alloc a => exact id
  | release j => exact id
  | reserve a =>
    rintro ⟨_, hsize, hempty⟩
    obtain ⟨_, hlive⟩ := h.tail_live (toNat_pos_iff_ne_zero.1 hsize)
    exact (ne_sentinels_of_isAge hlive).1 hempty

/-- Without a pool no command answers `Fault`. -/
theorem initDone_of_fault_cause {b : Block} {i : Instr} (h : StatusCause b i .fault) : b.initDone = true := by
  cases i with
  | init c => exact h.elim
  | alloc a => exact h.elim
  | release j => exact h.elim
  | reserve a =>
    obtain ⟨hpool, _⟩ := h
    exact hpool

/-- Settles O46: a new record would be of a `Fault` response, whose cause no window admits. -/
theorem noFaultWithReanchor : Obligations.NoFaultWithReanchor := by
  intro s t hsetting hs ho hsafe h
  obtain heq | ⟨i, u, v, st, k, hanswer, hblock, hbefore, hafter⟩ := step_faulted_cases h
  · exact heq.trans hsafe
  · rw [State.Safe, hafter, Bool.eq_false_iff]
    intro hrecord
    obtain hold | rfl := (faulted_iff_of_answers hanswer).1 hrecord
    · exact Bool.noConfusion ((hbefore.trans hsafe).symm.trans hold)
    · have hcause : StatusCause s.block i .fault := hblock ▸ statusCause_of_answers (hblock ▸ hs) hanswer
      obtain ⟨L, hw⟩ := ho hsetting (initDone_of_fault_cause hcause)
      exact hw.not_fault_cause i hcause

end Sys2Proof.Machine
end

section
/-! PROOFS of the statements about `70_reset_and_hazards.md`: a reset between commands and during one (R195), the slot allocated in a
drained pool (R199), and the bounds on slot-array accesses (R205). -/

namespace Sys2Proof.Machine

/-! ### Resets (R195) -/

/-- Settles O13, by the one thing the step does: the hardware reset, which writes the block alone. -/
theorem resetEventEndsThePool : Obligations.ResetEventEndsThePool := by
  intro s rest hin
  exact ⟨_, step_of_reset hin, rfl, Block.afterReset_wf _, rfl, rfl, rfl, rfl⟩

/-- Settles O14, by the two orders: after the command, which answers as it would have without the reset, or before it. -/
theorem resetDuringCommand : Obligations.ResetDuringCommand := by
  intro s w rest hin hs
  rw [step_of_resetDuring hin]
  split
  · next hafter =>
    obtain ⟨u, hu, _⟩ := exec_completes (decode w) hs
    obtain ⟨b, st, k, rfl, hinterrupted⟩ := exec_depends (u := (s.take rest).drawn) hu rfl rfl
    rw [hinterrupted, resetAfter]
    exact ⟨_, rfl, rfl, rfl, .inr ⟨_, hu, rfl, rfl⟩⟩
  · next hbefore => exact ⟨_, rfl, rfl, rfl, .inl ⟨rfl, rfl⟩⟩

/-! ### A slot allocated in a drained pool (R199) -/

/-- Settles O50: the re-anchor step puts `tail` on the slot allocated, which is then the one live slot, so `RESERVE` takes it. -/
theorem allocThenReserveInDrainedPool : Obligations.AllocThenReserveInDrainedPool := by
  intro a r k s t hsetting hs hpool hdrained h
  have ⟨hexec, _⟩ := h
  have ht : t.block.Inv := (exec_effect hexec).inv hs
  obtain ⟨j, hfound, rfl, hblock⟩ := alloc_ok_block h
  obtain ⟨⟨_, hmax, _, _, _, hage⟩, _⟩ := hs.2 hpool
  obtain ⟨hslot, _, _, hstamp⟩ := Block.fillSlot_named hs hpool s.tailReanchor hfound
  have hone : t.block.size = 1 := by rw [hblock, Block.fillSlot_size, hdrained]; rfl
  have htail : t.block.tail = BitVec.ofNat 8 j := by rw [hblock, Block.fillSlot_tail, if_pos ⟨hsetting, hdrained⟩]
  have hlive : t.block.Live t.block.tail.toNat := by
    rw [htail, hblock]
    exact ⟨hslot, by rw [hstamp]; exact (isAge_iff _).2 hage⟩
  obtain ⟨u, hu⟩ := reserve_answers_ok r (hblock ▸ hpool) (hblock ▸ hmax) (by rw [hone]; decide) hlive
  rw [htail] at hu
  obtain ⟨_, hlast⟩ := staleTailArises
  obtain ⟨hsize, _, hentry⟩ := hlast r _ t u ht (by rw [hone]; rfl) hu
  exact ⟨u, hu, hentry, hsize⟩

/-! ### The entries a scan reads (`20_memory.md` R58) -/

theorem Block.scanReads_le (b : Block) (want : Byte) (base fuel j : Nat) : b.scanReads want base fuel j ≤ fuel := by
  induction fuel generalizing j with
  | zero => exact Nat.le_refl 0
  | succ fuel ih =>
    rw [Block.scanReads]
    split
    · omega
    · split
      · omega
      · exact Nat.succ_le_succ (ih (j + 1))

/-- A scan that misses has made every one of its probes. -/
theorem Block.scanReads_of_missed {b : Block} {want : Byte} {base fuel j : Nat} (h : b.scan want base fuel j = .missed) :
    b.scanReads want base fuel j = fuel := by
  induction fuel generalizing j with
  | zero => rfl
  | succ fuel ih =>
    cases hv : b.slot? (idxAdd b.capacity base j) with
    | none => simp [Block.scan, hv] at h
    | some v =>
      by_cases hw : v = want
      · simp [Block.scan, hv, hw] at h
      · simp only [Block.scan, Block.scanReads, hv, if_neg hw] at h ⊢
        rw [ih h]

/-- A scan that finds an entry has read it. -/
theorem Block.scanReads_pos_of_found {b : Block} {want : Byte} {base fuel j k : Nat} (h : b.scan want base fuel j = .found k) :
    1 ≤ b.scanReads want base fuel j := by
  cases fuel with
  | zero => cases h
  | succ fuel =>
    cases hv : b.slot? (idxAdd b.capacity base j) with
    | none => simp [Block.scan, hv] at h
    | some v =>
      simp only [Block.scanReads, hv]
      split <;> omega

theorem Block.resyncReads_le (b : Block) (v : Byte) : b.resyncReads v ≤ b.capacity.toNat :=
  Block.scanReads_le b _ _ _ _

/-! ### The accesses of each command, by how it ends (R205) -/

theorem accesses_init_refused {c : Byte} (b : Block) (h : c.toNat < 2 ∨ 253 < c.toNat) : accesses (.init c) b = ⟨0, 0⟩ :=
  if_pos h

theorem accesses_init_ok {c : Byte} (b : Block) (hmin : 2 ≤ c.toNat) (hmax : c.toNat ≤ 253) :
    accesses (.init c) b = ⟨0, c.toNat⟩ :=
  if_neg (show ¬ (c.toNat < 2 ∨ 253 < c.toNat) by omega)

theorem accesses_alloc_noPool (a : Byte) {b : Block} (h : b.initDone = false) : accesses (.alloc a) b = ⟨0, 0⟩ :=
  if_pos h

theorem accesses_alloc_hit (a : Byte) {b : Block} {k : Nat} (hpool : b.initDone = true) (hk : b.findEmpty = .found k) :
    accesses (.alloc a) b = ⟨b.scanReads Config.empty b.head.toNat b.capacity.toNat 0, 1⟩ := by
  simp [accesses, allocAccesses, hpool, hk]

/-- Past a missed `EMPTY` scan `ALLOC` has read the whole pool, and reads the entry at `tail` again. -/
theorem accesses_alloc_miss (a : Byte) {b : Block} {v : Byte} (hpool : b.initDone = true) (hm : b.findEmpty = .missed)
    (hv : b.slot? b.tail.toNat = some v) :
    accesses (.alloc a) b =
      if v = Config.reserved then ⟨b.capacity.toNat + 1, 0⟩ else ⟨b.capacity.toNat + 1 + b.resyncReads v, 1⟩ := by
  have hreads : b.scanReads Config.empty b.head.toNat b.capacity.toNat 0 = b.capacity.toNat := Block.scanReads_of_missed hm
  simp only [accesses, allocAccesses, hm, hv, hreads]
  exact if_neg (by simp [hpool])

theorem accesses_reserve_skipped (a : Byte) {b : Block} (h : b.initDone = false ∨ b.size = 0) :
    accesses (.reserve a) b = ⟨0, 0⟩ :=
  if_pos h

theorem accesses_reserve_reads (a : Byte) {b : Block} {v : Byte} (hpool : b.initDone = true) (hsize : b.size ≠ 0)
    (hv : b.slot? b.tail.toNat = some v) :
    accesses (.reserve a) b =
      if v = Config.reserved ∨ v = Config.empty then ⟨1, 0⟩ else ⟨1 + b.resyncReads v, 1⟩ := by
  rw [accesses, reserveAccesses, if_neg (not_or.2 ⟨by simp [hpool], hsize⟩), hv]

/-- A refused `RELEASE` has read the entry it names or none. -/
theorem accesses_release_refused {i : Byte} {b : Block}
    (h : b.initDone = false ∨ b.capacity.toNat ≤ i.toNat ∨ b.entry i.toNat ≠ Config.reserved) :
    (accesses (.release i) b).reads ≤ 1 ∧ (accesses (.release i) b).writes = 0 ∧
      (b.initDone = false → (accesses (.release i) b).reads = 0) := by
  rw [accesses, releaseAccesses]
  cases hpool : b.initDone with
  | false => simp
  | true =>
    cases hv : b.slot? i.toNat with
    | none => simp
    | some v =>
      obtain ⟨hi, _, rfl⟩ := Block.slot?_eq_some.1 hv
      have hne : b.entry i.toNat ≠ Config.reserved := by simpa [hpool, Nat.not_le.2 hi] using h
      simp only [if_neg hne]
      exact ⟨Nat.le_refl 1, rfl, nofun⟩

theorem accesses_release_ok {i : Byte} {b : Block} (hpool : b.initDone = true) (hv : b.slot? i.toNat = some Config.reserved) :
    accesses (.release i) b = ⟨1, 1⟩ := by
  simp [accesses, releaseAccesses, hpool, hv]

/-! ### The bounds (R205) -/

/-- Settles O53, by how each command ends: a scan makes at most `capacity` probes, and a missed one makes them all. -/
theorem accessBounds : Obligations.AccessBounds := by
  rintro i s t st k hs ⟨hexec, hout⟩
  cases i with
  | init c =>
    obtain ⟨hc, rfl⟩ | ⟨hmin, hmax, rfl⟩ := execInit_cases hexec <;> obtain ⟨rfl, rfl⟩ := reply_answers hout
    · simp [accesses_init_refused _ hc]
    · exact accesses_init_ok _ hmin hmax
  | alloc a =>
    obtain ⟨hno, rfl⟩ | ⟨hpool, j, hf, rfl⟩ | ⟨hpool, hm, hv, rfl⟩ | ⟨hpool, hm, v, r, hv, hr, _, rfl⟩ :=
      execAlloc_cases (a := a) hexec <;> obtain ⟨rfl, rfl⟩ := reply_answers hout
    · simp [accesses_alloc_noPool a hno]
    · have hpos := Block.scanReads_pos_of_found hf
      have hle := s.block.scanReads_le Config.empty s.block.head.toNat s.block.capacity.toNat 0
      simpa only [accesses_alloc_hit a hpool hf, and_true] using ⟨hpos, hle⟩
    · simp [accesses_alloc_miss a hpool hm hv]
    · have hle := s.block.resyncReads_le v
      simp only [accesses_alloc_miss a hpool hm hv, if_neg hr, and_true]
      omega
  | reserve a =>
    obtain ⟨hno, rfl⟩ | ⟨hpool, hz, rfl⟩ | ⟨hpool, hz, hv, rfl⟩ | ⟨hpool, hz, hv, rfl⟩ | ⟨hpool, hz, v, r, hv, hr, he, _, rfl⟩ :=
      execReserve_cases (a := a) hexec <;> obtain ⟨rfl, rfl⟩ := reply_answers hout
    · simp [accesses_reserve_skipped a (.inl hno)]
    · simp [accesses_reserve_skipped a (.inr hz)]
    · simp [accesses_reserve_reads a hpool hz hv, hpool]
    · simp [accesses_reserve_reads a hpool hz hv, hpool]
    · have hle := s.block.resyncReads_le v
      simp only [accesses_reserve_reads a hpool hz hv, if_neg (not_or.2 ⟨hr, he⟩), and_true]
      omega
  | release i =>
    obtain ⟨hcause, rfl⟩ | ⟨hpool, hi, hd, hr, rfl⟩ := execRelease_cases hexec <;> obtain ⟨rfl, rfl⟩ := reply_answers hout
    · exact accesses_release_refused hcause
    · exact accesses_release_ok hpool (Block.slot?_eq_some.2 ⟨hi, hd, hr⟩)

end Sys2Proof.Machine
end
